-- ==== Sys2Proof/Word.lean ====
section
/-!
DEFINITION. The value one cell of Memory holds, and the range of a cell of finite width.
The machine has no words, bytes or bit fields: `CELL` is the signed mathematical integers, with no bound, so a cell's
value is an `Int` (spec/00_scope.md R4, R5; spec/20_memory.md R34; D1).
-/

namespace Sys2Proof

/-- Whether a value is one of the values a cell can hold. With no `CELL_BITS` every integer is; with
`CELL_BITS = n` the integers from `-2^(n-1)` to `2^(n-1) - 1` are (00_scope.md R4, 43_arithmetic.md R110). -/
def cellInRange (cellBits : Option Nat) (v : Int) : Bool :=
  match cellBits with
  | none => true
  | some n => decide (-(2 ^ (n - 1) : Int) ≤ v ∧ v ≤ 2 ^ (n - 1) - 1)

end Sys2Proof
end

