-- ==== Sys2Proof/Config.lean ====
section
/-!
DEFINITION. The parameters of the machine that the spec leaves open (spec/00_scope.md R4): `CELL_BITS`,
`MAX_LEN` and `INPUT_POLICY`. They are plain data and stand in State, where no step changes them, so that every
statement about a state is about every value of the parameters (log entry 5).
-/

namespace Sys2Proof

/-- `INPUT_POLICY`: what the input boundary does when no value is ready (00_scope.md R4, 44_io.md R117). -/
inductive InputPolicy where
  /-- A preloaded queue: an empty supply fails with `InputExhausted`. -/
  | queue
  /-- An interactive source: the machine waits until a value exists. -/
  | blocking
  deriving DecidableEq, Repr

/-- The parameters of one machine, constant through a run (00_scope.md R4). -/
structure Config where
  /-- `CELL_BITS`: `none` for the unbounded default. -/
  cellBits : Option Nat
  /-- `MAX_LEN`: `none` for the unbounded default. -/
  maxLen : Option Nat
  inputPolicy : InputPolicy
  deriving DecidableEq, Repr

/-- The defaults of spec/95_test_vectors.md: `CELL` unbounded, Memory unbounded, `INPUT_POLICY = queue`. The spec
leaves the policy open, so `queue` is a DESIGN CHOICE (log entry 5). -/
def Config.default : Config := ⟨none, none, .queue⟩

/-- `CELL_BITS`, where it is finite, is at least 2 (43_arithmetic.md R110). -/
def Config.valid (c : Config) : Bool :=
  match c.cellBits with
  | none => true
  | some n => decide (2 ≤ n)

end Sys2Proof
end

