-- ==== Sys2Proof/Syntax.lean ====
section
/-!
DEFINITION. The instructions, whole: one constructor of `Instr` per row of spec/opcode_table.json, with the kinds, roles
and modes of spec/30_encoding.md R53 and R56.
-/

namespace Sys2Proof

/-- The five instruction kinds (30_encoding.md R56). -/
inductive Kind where
  | add
  | multiply
  | input
  | output
  | halt
  deriving DecidableEq, Repr

/-- What a parameter is for (40_decoder.md R73). -/
inductive Role where
  | source
  | destination
  deriving DecidableEq, Repr

/-- The two parameter modes (30_encoding.md R53). -/
inductive Mode where
  | position
  | immediate
  deriving DecidableEq, Repr

/-- The roles of a kind's parameters, parameter 0 first (40_decoder.md R73). -/
def Kind.roles : Kind → List Role
  | .add => [.source, .source, .destination]
  | .multiply => [.source, .source, .destination]
  | .input => [.destination]
  | .output => [.source]
  | .halt => []

/-- The number of parameters of a kind (40_decoder.md R73). -/
def Kind.arity (k : Kind) : Nat := k.roles.length

/-- The number of cells an instruction of a kind occupies (30_encoding.md R50, R55). -/
def Kind.width (k : Kind) : Nat := 1 + k.arity

/-- A decoded instruction with its fetched parameters. `m0`, `m1` are the modes of the source parameters and `p0`, `p1`,
`p2` the raw parameter values. A destination has no mode here: after decoding it is always position
(40_decoder.md R74, 41_operand_resolver.md R84). -/
inductive Instr where
  | add (m0 m1 : Mode) (p0 p1 p2 : Int)
  | multiply (m0 m1 : Mode) (p0 p1 p2 : Int)
  | input (p0 : Int)
  | output (m0 : Mode) (p0 : Int)
  | halt
  deriving DecidableEq, Repr

def Instr.kind : Instr → Kind
  | .add .. => .add
  | .multiply .. => .multiply
  | .input .. => .input
  | .output .. => .output
  | .halt => .halt

/-- The raw parameter values, parameter 0 first. -/
def Instr.params : Instr → List Int
  | .add _ _ p0 p1 p2 => [p0, p1, p2]
  | .multiply _ _ p0 p1 p2 => [p0, p1, p2]
  | .input p0 => [p0]
  | .output _ p0 => [p0]
  | .halt => []

/-- The modes, parameter 0 first; a destination's is position (40_decoder.md R74). -/
def Instr.modes : Instr → List Mode
  | .add m0 m1 _ _ _ => [m0, m1, .position]
  | .multiply m0 m1 _ _ _ => [m0, m1, .position]
  | .input _ => [.position]
  | .output m0 _ => [m0]
  | .halt => []

def Instr.width (i : Instr) : Nat := i.kind.width

end Sys2Proof
end

