-- ==== Sys2Proof/WellFormed.lean ====
section
/-!
DEFINITION. Which instructions can stand in Memory: every raw parameter is a value a cell can hold
(spec/30_encoding.md R57, spec/43_arithmetic.md R110). With no `CELL_BITS` every instruction is well formed.
-/

namespace Sys2Proof

def Instr.wellFormed (cellBits : Option Nat) (i : Instr) : Bool :=
  i.params.all (cellInRange cellBits)

end Sys2Proof
end

