-- ==== Sys2Proof/Decode.lean ====
section
/-!
DEFINITION. The Decoder (spec/40_decoder.md), the reading of a whole instruction from a list of cells, and the
encoder (spec/30_encoding.md R50 to R53, R66).
-/

namespace Sys2Proof

/-- The sub-causes of `DecodeError` (60_exceptions.md R132). -/
inductive DecodeError where
  | unknownKind
  | invalidMode
  | writeModeNonZero
  | negativeOpcode
  deriving DecidableEq, Repr

/-- What the Decoder produces: the kind and one mode per parameter (40_decoder.md R70). -/
structure Decoded where
  kind : Kind
  modes : List Mode
  deriving DecidableEq, Repr

/-- A decoded instruction or a `DecodeError` (40_decoder.md R70). -/
inductive DecodeResult where
  | decoded (d : Decoded)
  | rejected (e : DecodeError)
  deriving DecidableEq, Repr

/-- `dig(v, k)`: the decimal digit of `v` at position `k` (00_scope.md R5). -/
def dig (v k : Nat) : Nat := v / 10 ^ k % 10

/-- The number of a kind (30_encoding.md R56). -/
def Kind.code : Kind → Nat
  | .add => 1
  | .multiply => 2
  | .input => 3
  | .output => 4
  | .halt => 99

/-- The kind a number names (40_decoder.md R72). -/
def Kind.ofCode (k : Nat) : Option Kind :=
  if k = 1 then some .add
  else if k = 2 then some .multiply
  else if k = 3 then some .input
  else if k = 4 then some .output
  else if k = 99 then some .halt
  else none

/-- The mode digit of a mode (30_encoding.md R53). -/
def Mode.digit : Mode → Nat
  | .position => 0
  | .immediate => 1

/-- One mode digit checked against its parameter's role: the digit's range before the destination check
(40_decoder.md R74). -/
def decodeMode (r : Role) (d : Nat) : Except DecodeError Mode :=
  if 2 ≤ d then .error .invalidMode
  else if r = .destination ∧ d ≠ 0 then .error .writeModeNonZero
  else .ok (if d = 0 then .position else .immediate)

/-- The modes of parameters `i`, `i + 1`, ..., one per role, in ascending order; the first failure is the one reported
(40_decoder.md R74). -/
def decodeModes (v i : Nat) : List Role → Except DecodeError (List Mode)
  | [] => .ok []
  | r :: rs =>
    match decodeMode r (dig v (i + 2)) with
    | .error e => .error e
    | .ok m =>
      match decodeModes v (i + 1) rs with
      | .error e => .error e
      | .ok ms => .ok (m :: ms)

/-- `Decode(v)` (40_decoder.md R76): total on every integer. -/
def decode (v : Int) : DecodeResult :=
  if v < 0 then .rejected .negativeOpcode
  else
    match Kind.ofCode (v.toNat % 100) with
    | none => .rejected .unknownKind
    | some k =>
      match decodeModes v.toNat 0 k.roles with
      | .error e => .rejected e
      | .ok ms => .decoded ⟨k, ms⟩

def Decoded.arity (d : Decoded) : Nat := d.kind.arity

def Decoded.width (d : Decoded) : Nat := d.kind.width

/-- The mode of parameter `i`. -/
def Decoded.mode (d : Decoded) (i : Nat) : Mode := d.modes.getD i .position

/-- The instruction that a decoded opcode value and its raw parameter values make. `raw` holds one value per parameter
wherever this is used. -/
def Decoded.instr (d : Decoded) (raw : List Int) : Instr :=
  match d.kind with
  | .add => .add (d.mode 0) (d.mode 1) (raw.getD 0 0) (raw.getD 1 0) (raw.getD 2 0)
  | .multiply => .multiply (d.mode 0) (d.mode 1) (raw.getD 0 0) (raw.getD 1 0) (raw.getD 2 0)
  | .input => .input (raw.getD 0 0)
  | .output => .output (d.mode 0) (raw.getD 0 0)
  | .halt => .halt

/-- What stands at the start of a list of cells. -/
inductive CellsResult where
  /-- An instruction, and the cells after it. -/
  | decoded (i : Instr) (rest : List Int)
  /-- The Decoder refuses the opcode value `v`. -/
  | rejected (e : DecodeError) (v : Int)
  /-- The list ends before cell `k` of the instruction (0 is the opcode cell). -/
  | missing (k : Nat)
  deriving DecidableEq, Repr

/-- Read one instruction from a list of cells: opcode cell, then parameters 0, 1, 2 (30_encoding.md R50). A refused opcode
value wins over a missing parameter cell (40_decoder.md R75). -/
def decodeCells : List Int → CellsResult
  | [] => .missing 0
  | v :: rest =>
    match decode v with
    | .rejected e => .rejected e v
    | .decoded d =>
      if rest.length < d.arity then .missing (1 + rest.length)
      else .decoded (d.instr (rest.take d.arity)) (rest.drop d.arity)

/-- The mode digits of an instruction as a number: parameter `i`'s digit has weight `10^i` (30_encoding.md R51). -/
def modeDigits : List Mode → Nat
  | [] => 0
  | m :: ms => m.digit + 10 * modeDigits ms

/-- The opcode value of an instruction, `kind + 100*m0 + 1000*m1 + 10000*m2` (30_encoding.md R66). -/
def encodeOpcode (i : Instr) : Nat := i.kind.code + 100 * modeDigits i.modes

/-- The opcode value with surplus high digits above the last mode digit, which the Decoder does not examine
(30_encoding.md R64). -/
def encodeOpcodeHigh (i : Instr) (high : Nat) : Nat := encodeOpcode i + high * 10 ^ (1 + i.width)

/-- The cells of an instruction, opcode cell first (30_encoding.md R50). -/
def encode (i : Instr) : List Int := (encodeOpcode i : Int) :: i.params

/-- The cells an instruction of spec/opcode_table.json occupies when its first `nbits` bits are `w` and every later bit is
zero: the whole number is the opcode value (a cell has no width to split it at), and the parameter cells hold 0
(log entry 9). -/
def tableCells (nbits w : Nat) : List Int := [((w % 2 ^ nbits : Nat) : Int), 0, 0, 0]

/-- The instruction the Decoder reads from a word of spec/opcode_table.json, if it reads one. -/
def decodeTableWord (nbits w : Nat) : Option Instr :=
  match decodeCells (tableCells nbits w) with
  | .decoded i _ => some i
  | .rejected _ _ => none
  | .missing _ => none

end Sys2Proof
end

