-- ==== Sys2Proof/Machine/State.lean ====
section
/-!
DEFINITION. The state of the machine, as plain data, whole (spec/10_state.md), the reasons a step can stop, and the state
after reset.
-/

namespace Sys2Proof.Machine

/-- Run state `rs` (10_state.md R17). -/
inductive RunState where
  | running
  | halted
  | faulted
  deriving DecidableEq, Repr

/-- The fault causes (60_exceptions.md R130). `none` is the model's own value, what `fcause` holds before a fault is recorded
(log entry 3). `invalidProgram` is raised by `load` alone and never stands in `fcause` (10_state.md R19). -/
inductive Cause where
  | none
  | invalidProgram
  | decodeError
  | addressOutOfBounds
  | inputExhausted
  | overflow
  deriving DecidableEq, Repr

/-- The numeric code of a cause (60_exceptions.md R136); 0 where none is recorded. -/
def Cause.code : Cause → Nat
  | .none => 0
  | .invalidProgram => 1
  | .decodeError => 2
  | .addressOutOfBounds => 3
  | .inputExhausted => 4
  | .overflow => 5

/-- What `fsub` holds: the sub-cause of a `DecodeError` (60_exceptions.md R132). `none` is the model's own value, what it holds
before one is recorded (log entry 3). -/
inductive SubCause where
  | none
  | unknownKind
  | invalidMode
  | writeModeNonZero
  | negativeOpcode
  deriving DecidableEq, Repr

/-- The numeric sub-code (60_exceptions.md R132, R136). -/
def SubCause.code : SubCause → Nat
  | .none => 0
  | .unknownKind => 1
  | .invalidMode => 2
  | .writeModeNonZero => 3
  | .negativeOpcode => 4

/-- A `raise F(info)` of the pseudocode: a run-time fault and what it reports (00_scope.md R6, 60_exceptions.md R130). -/
inductive Raise where
  | decodeError (sub : DecodeError) (v : Int)
  | addressOutOfBounds (a : Int)
  | inputExhausted
  | overflow
  deriving DecidableEq, Repr

/-- The three outcomes of an attempt: it completes, it faults, it holds (00_scope.md R7). -/
inductive Attempt (α : Type) where
  | completes (a : α)
  | faults (r : Raise)
  | holds
  deriving DecidableEq, Repr

/-- Why no step exists. -/
inductive Fault where
  /-- Raised by `step` when `rs = Halted`: "no further instructions execute" (45_halt.md R126). Safe: the model stops where the
  machine has no step. -/
  | halted
  /-- Raised by `step` when `rs = Faulted`: no further instruction executes (60_exceptions.md R140, R144). Safe: the model stops
  where the machine has no step. -/
  | faulted
  deriving DecidableEq, Repr

/-- Why a step is refused. -/
inductive Refusal where
  /-- Raised by `exec` for an instruction that has no meaning yet. Safe. No arm answers with it. -/
  | notModelled (mnemonic : String)
  /-- Raised by `step` and `run` before a successful `load`, when no machine state exists (70_reset_and_hazards.md R167,
  D15, U14). Safe: the spec gives such a run no meaning. -/
  | noProgram
  deriving DecidableEq, Repr

/-- Memory `M`: the cell at address `a` is element `a`, and `LEN` is the length (10_state.md R12). -/
abbrev Memory := List Int

/-- The form of Memory that every operation keeps: each cell holds a value the machine's cells can hold. A list of cells
has no second form for the same contents, so equal memories are equal lists (log entry 1). -/
def Memory.wf (cellBits : Option Nat) (m : Memory) : Bool := m.all (cellInRange cellBits)

/-- The whole state (10_state.md, opening), the parameters of 00_scope.md R4, and the environment's two lists of
10_state.md R22(c). -/
structure State where
  /-- `CELL_BITS`, `MAX_LEN`, `INPUT_POLICY`; constant through a run. -/
  config : Config
  /-- `M`; empty exactly when no program has been loaded (`LEN >= 1` after `load`, 00_scope.md R4). -/
  mem : Memory
  ip : Nat
  rs : RunState
  fcause : Cause
  fsub : SubCause
  fip : Nat
  finfo : Int
  icount : Nat
  /-- The remaining inputs of the environment, next one first. -/
  inq : List Int
  /-- The values emitted in this run, oldest first. -/
  outlog : List Int
  deriving DecidableEq, Repr

/-- Before any `load` (10_state.md R24, R25): no cell of Memory, `ip = 0`, `Running`, `icount = 0`, nothing emitted. The spec gives
the fault record no reset value (log entry 3), leaves the inputs to the environment (log entry 4) and the parameters open
(log entry 5). -/
def State.reset : State where
  config := .default
  mem := []
  ip := 0
  rs := .running
  fcause := .none
  fsub := .none
  fip := 0
  finfo := 0
  icount := 0
  inq := []
  outlog := []

end Sys2Proof.Machine
end

