-- ==== Sys2Proof/Machine/Ops.lean ====
section
/-!
DEFINITION. The named operations over Memory, the run and the two boundaries, and taking a fault.
-/

namespace Sys2Proof.Machine

/-- The rest of an attempt after its first part; a fault or a hold ends it there (20_memory.md R41). -/
def Attempt.andThen {α β : Type} (x : Attempt α) (f : α → Attempt β) : Attempt β :=
  match x with
  | .completes a => f a
  | .faults r => .faults r
  | .holds => .holds

/-- `CheckAddr(a)`: the address itself where it lies inside Memory (00_scope.md R6, 20_memory.md R33). -/
def checkAddr (m : Memory) (a : Int) : Attempt Int :=
  if a < 0 ∨ (m.length : Int) ≤ a then .faults (.addressOutOfBounds a) else .completes a

/-- `MemRead(a, 1)` (20_memory.md R31). -/
def memRead (m : Memory) (a : Int) : Attempt Int :=
  if a < 0 then .faults (.addressOutOfBounds a)
  else
    match m[a.toNat]? with
    | some v => .completes v
    | none => .faults (.addressOutOfBounds a)

/-- `M[a] <- v`, of an address already known to lie inside Memory (00_scope.md R6). -/
def State.store (s : State) (a : Int) (v : Int) : State := { s with mem := s.mem.set a.toNat v }

/-- `MemWrite(a, 1, v)` (20_memory.md R32). -/
def memWrite (s : State) (a : Int) (v : Int) : Attempt State :=
  (checkAddr s.mem a).andThen fun a => .completes (s.store a v)

/-- The environment's supply after a request was answered. -/
def State.consume (s : State) (rest : List Int) : State := { s with inq := rest }

/-- The values of an environment's offer that the input boundary takes up: all of them with no `CELL_BITS`, and under a finite one
those in range, because "the input boundary delivers only values in range" (43_arithmetic.md R110; log entry 10). -/
def deliverable (c : Config) (vs : List Int) : List Int := vs.filter (cellInRange c.cellBits)

/-- The value the boundary can deliver now and the supply after it; never a value out of range (43_arithmetic.md R110). A supply
that `load` and `State.supply` built holds no such value, so that its first value is always the one delivered. -/
def State.nextInput (s : State) : Option (Int × List Int) :=
  match s.inq with
  | [] => none
  | x :: rest => if cellInRange s.config.cellBits x then some (x, rest) else none

/-- `In()`: one request to the input boundary, with its three answers (44_io.md R117). -/
def takeInput (s : State) : Attempt (Int × State) :=
  match s.nextInput with
  | some (x, rest) => .completes (x, s.consume rest)
  | none =>
    match s.config.inputPolicy with
    | .queue => .faults .inputExhausted
    | .blocking => .holds

/-- `Out(v)`: one emission to the output boundary, which always succeeds (44_io.md R118). -/
def State.emit (s : State) (v : Int) : State := { s with outlog := s.outlog ++ [v] }

/-- `rs <- Halted` (45_halt.md R125). -/
def State.stop (s : State) : State := { s with rs := .halted }

/-- Steps 5 and 6 of the loop: the advance and the count (42_step_loop.md R95, R96). -/
def State.advance (s : State) (width : Nat) : State := { s with ip := s.ip + width, icount := s.icount + 1 }

/-- The register value of a `DecodeError`'s sub-cause (60_exceptions.md R132). -/
def subCauseOf : DecodeError → SubCause
  | .unknownKind => .unknownKind
  | .invalidMode => .invalidMode
  | .writeModeNonZero => .writeModeNonZero
  | .negativeOpcode => .negativeOpcode

/-- The cause a raised fault records (60_exceptions.md R130). -/
def Raise.cause : Raise → Cause
  | .decodeError _ _ => .decodeError
  | .addressOutOfBounds _ => .addressOutOfBounds
  | .inputExhausted => .inputExhausted
  | .overflow => .overflow

/-- The `finfo` of a raised fault (10_state.md R19, 60_exceptions.md R130). -/
def Raise.info : Raise → Int
  | .decodeError _ v => v
  | .addressOutOfBounds a => a
  | .inputExhausted => 0
  | .overflow => 0

/-- The `fsub` after a raised fault: written by a `DecodeError` only (60_exceptions.md R141; log entry 8). -/
def Raise.sub (r : Raise) (old : SubCause) : SubCause :=
  match r with
  | .decodeError e _ => subCauseOf e
  | .addressOutOfBounds _ => old
  | .inputExhausted => old
  | .overflow => old

/-- Taking a fault (60_exceptions.md R141): the run state and the fault record are written, nothing else. Control goes nowhere,
and there is no return: the only way on is `load` (R144, R165), which Machine/Load.lean holds. -/
def takeFault (r : Raise) (s : State) : State :=
  { s with rs := .faulted, fcause := r.cause, fsub := r.sub s.fsub, fip := s.ip, finfo := r.info }

/-- The outcome of an instruction of a given width whose body, run at `s`, was the attempt (00_scope.md R7): it completes with
the body's writes, the advance and the count; or faults with none of them; or holds, and the state is as before (log entry 7). -/
def settle (s : State) (width : Nat) (body : Attempt State) : Host.Outcome State Fault Refusal :=
  match body with
  | .completes t => .next (t.advance width)
  | .faults r => .next (takeFault r s)
  | .holds => .next s

end Sys2Proof.Machine
end

