-- ==== Sys2Proof/Machine/Operands.lean ====
section
/-!
DEFINITION. The Operand resolver (spec/41_operand_resolver.md): the three addressing modes of R85, whole.
-/

namespace Sys2Proof.Machine

/-- `ReadOperand(raw, mode)`: the value of a source parameter (41_operand_resolver.md R80 to R82). -/
def readOperand (m : Memory) (raw : Int) (mode : Mode) : Attempt Int :=
  match mode with
  | .position => memRead m raw
  | .immediate => .completes raw

/-- `WriteAddress(raw)`: the address of a destination parameter, checked (41_operand_resolver.md R83). -/
def writeAddress (m : Memory) (raw : Int) : Attempt Int := checkAddr m raw

end Sys2Proof.Machine
end

