-- ==== Sys2Proof/Machine/Flags.lean ====
section
/-!
DEFINITION. The machine has no flags and no condition codes (spec/10_state.md R11). The one condition a result can raise is
that it does not fit a cell of finite width (spec/43_arithmetic.md R110).
-/

namespace Sys2Proof.Machine

/-- Whether a result lies outside the cell's range; never so with no `CELL_BITS` (43_arithmetic.md R108, R110). -/
def overflows (c : Config) (v : Int) : Bool := !cellInRange c.cellBits v

/-- A result as it may be stored: itself, or the fault `Overflow`; never wrapped, truncated or saturated
(43_arithmetic.md R110). -/
def checkResult (c : Config) (v : Int) : Attempt Int :=
  if overflows c v then .faults .overflow else .completes v

end Sys2Proof.Machine
end

