-- ==== Sys2Proof/Machine/Arithmetic.lean ====
section
/-!
DEFINITION. The integer ALU and the two arithmetic instructions (spec/43_arithmetic.md).
-/

namespace Sys2Proof.Machine

/-- The two operations of the ALU (43_arithmetic.md R107). -/
inductive AluOp where
  | sum
  | product
  deriving DecidableEq, Repr

/-- `ALU(op, a, b)`: exact on the integers (43_arithmetic.md R107, R108). -/
def alu (op : AluOp) (a b : Int) : Int :=
  match op with
  | .sum => a + b
  | .product => a * b

/-- The body of an arithmetic instruction: source 0, source 1, the write address, the result's range, the store
(43_arithmetic.md R105, R106; 20_memory.md R41; 60_exceptions.md R139). -/
def arithBody (op : AluOp) (m0 m1 : Mode) (p0 p1 p2 : Int) (s : State) : Attempt State :=
  (readOperand s.mem p0 m0).andThen fun a =>
  (readOperand s.mem p1 m1).andThen fun b =>
  (writeAddress s.mem p2).andThen fun t =>
  (checkResult s.config (alu op a b)).andThen fun v =>
  memWrite s t v

/-- `add` (43_arithmetic.md R105). -/
def execAdd (m0 m1 : Mode) (p0 p1 p2 : Int) (s : State) : Host.Outcome State Fault Refusal :=
  settle s Kind.add.width (arithBody .sum m0 m1 p0 p1 p2 s)

/-- `multiply` (43_arithmetic.md R106). -/
def execMultiply (m0 m1 : Mode) (p0 p1 p2 : Int) (s : State) : Host.Outcome State Fault Refusal :=
  settle s Kind.multiply.width (arithBody .product m0 m1 p0 p1 p2 s)

end Sys2Proof.Machine
end

