-- ==== Sys2Proof/Machine/Halt.lean ====
section
/-!
DEFINITION. The halt instruction (spec/45_halt.md).
-/

namespace Sys2Proof.Machine

/-- `halt` (45_halt.md R125): the only instruction that changes `rs`; it also advances by its width 1 (D9). -/
def execHalt (s : State) : Host.Outcome State Fault Refusal :=
  settle s Kind.halt.width (.completes s.stop)

end Sys2Proof.Machine
end

