-- ==== Sys2Proof/Machine/InputOutput.lean ====
section
/-!
DEFINITION. The input and output instructions (spec/44_io.md).
-/

namespace Sys2Proof.Machine

/-- `input` (44_io.md R115): the write address is checked before the boundary is asked. -/
def execInput (p0 : Int) (s : State) : Host.Outcome State Fault Refusal :=
  settle s Kind.input.width <|
    (writeAddress s.mem p0).andThen fun t =>
    (takeInput s).andThen fun x =>
    memWrite x.2 t x.1

/-- `output` (44_io.md R116). -/
def execOutput (m0 : Mode) (p0 : Int) (s : State) : Host.Outcome State Fault Refusal :=
  settle s Kind.output.width <|
    (readOperand s.mem p0 m0).andThen fun a =>
    .completes (s.emit a)

end Sys2Proof.Machine
end

