-- ==== Sys2Proof/Machine/Dispatch.lean ====
section
/-!
DEFINITION. Step 4 of the loop: dispatch by kind (spec/42_step_loop.md R94), one arm per constructor of Instr.
-/

namespace Sys2Proof.Machine

def exec (i : Instr) (s : State) : Host.Outcome State Fault Refusal :=
  match i with
  | .add m0 m1 p0 p1 p2 => Sys2Proof.Machine.execAdd m0 m1 p0 p1 p2 s
  | .multiply m0 m1 p0 p1 p2 => Sys2Proof.Machine.execMultiply m0 m1 p0 p1 p2 s
  | .input p0 => Sys2Proof.Machine.execInput p0 s
  | .output m0 p0 => Sys2Proof.Machine.execOutput m0 p0 s
  | .halt => Sys2Proof.Machine.execHalt s

end Sys2Proof.Machine
end

