-- ==== Sys2Proof/Machine/Fetch.lean ====
section
/-!
DEFINITION. Steps 1 to 3 of the loop: opcode fetch, decode, parameter fetch (spec/42_step_loop.md R91 to R93), and the placing
of an instruction where the next fetch finds it.
-/

namespace Sys2Proof.Machine

/-- The cells at `a`, `a + 1`, ..., `n` of them, in ascending order; the first that lies outside Memory is the one reported
(42_step_loop.md R93). -/
def fetchParams (m : Memory) (a : Nat) : Nat → Attempt (List Int)
  | 0 => .completes []
  | n + 1 =>
    (memRead m (a : Int)).andThen fun p =>
    (fetchParams m (a + 1) n).andThen fun ps =>
    .completes (p :: ps)

/-- The result of the Decoder as an attempt of the step (42_step_loop.md R92). -/
def decodeStep (v : Int) : Attempt Decoded :=
  match decode v with
  | .decoded d => .completes d
  | .rejected e => .faults (.decodeError e v)

/-- The instruction at `ip` with its raw parameter values (42_step_loop.md R91 to R93). -/
def fetch (m : Memory) (ip : Nat) : Attempt Instr :=
  (memRead m (ip : Int)).andThen fun v =>
  (decodeStep v).andThen fun d =>
  (fetchParams m (ip + 1) d.arity).andThen fun raw =>
  .completes (d.instr raw)

/-- Memory with the given cells laid out from address `a` on; it grows where they do not fit, with cells of 0 before `a` if
it was shorter than that (log entry 9). -/
def placeCells (m : Memory) (a : Nat) (cells : List Int) : Memory :=
  m.take a ++ List.replicate (a - m.length) 0 ++ cells ++ m.drop (a + cells.length)

end Sys2Proof.Machine
end

