-- ==== Sys2Proof/Machine/Loop.lean ====
section
/-!
DEFINITION. One pass through the execution loop (spec/42_step_loop.md R90, R97).
-/

namespace Sys2Proof.Machine

/-- Steps 1 to 6 of the loop in a state whose `rs` is `Running`: fetch, then run what was fetched (42_step_loop.md R97). -/
def runInstruction (s : State) : Host.Outcome State Fault Refusal :=
  match fetch s.mem s.ip with
  | .completes i => exec i s
  | .faults r => .next (takeFault r s)
  | .holds => .next s

/-- One step. Before a `load` there is no machine state and the step is refused (70_reset_and_hazards.md R167); in `Halted` and in
`Faulted` there is no step (42_step_loop.md R90, 10_state.md R18; log entry 6). -/
def loopStep (s : State) : Host.Outcome State Fault Refusal :=
  if s.mem = [] then .refused .noProgram
  else
    match s.rs with
    | .running => runInstruction s
    | .halted => .fault .halted
    | .faulted => .fault .faulted

/-- The state with the instruction of a table word standing where the next step fetches, and running (log entry 9). -/
def placeTableWord (s : State) (nbits w : Nat) : State :=
  { s with mem := placeCells s.mem s.ip (tableCells nbits w), rs := .running }

end Sys2Proof.Machine
end

