-- ==== Sys2Proof/Machine/Step.lean ====
section
/-!
DEFINITION. The step of the machine, under the names the host reads.
-/

namespace Sys2Proof.Machine

/-- One step of the machine (spec/42_step_loop.md R97). -/
def step : State → Host.Outcome State Fault Refusal := loopStep

/-- `s` with the instruction of a word of spec/opcode_table.json where `step` fetches next. -/
def State.withFetchWord (s : State) (nbits w : Nat) : State := placeTableWord s nbits w

end Sys2Proof.Machine
end

