-- ==== Sys2Proof/Machine/Load.lean ====
section
/-!
DEFINITION. `load`, the machine's only reset (spec/70_reset_and_hazards.md R160 to R165), and the environment's move.
-/

namespace Sys2Proof.Machine

/-- What `load` answers: a state, or the failure `InvalidProgram`; never both (70_reset_and_hazards.md R164). -/
inductive LoadResult where
  | loaded (s : State)
  | failed (c : Cause)
  deriving DecidableEq, Repr

/-- Whether a program is longer than a finite `MAX_LEN` (70_reset_and_hazards.md R164). -/
def tooLong (c : Config) (n : Nat) : Bool :=
  match c.maxLen with
  | none => false
  | some k => decide (k < n)

/-- `load(program)`, of a machine with parameters `c` and an environment that offers `inputs`. It builds the state from its
arguments alone, whatever ran before (70_reset_and_hazards.md R163, R165), and fails for an empty program, a program longer than
`MAX_LEN` and a value outside `CELL_BITS` (R164). -/
def load (c : Config) (inputs : List Int) (program : List Int) : LoadResult :=
  if program = [] ∨ tooLong c program.length = true ∨ Memory.wf c.cellBits program = false then
    .failed .invalidProgram
  else
    .loaded { State.reset with config := c, mem := program, inq := deliverable c inputs }

/-- The environment makes values available at the input boundary, after those already there (44_io.md R117, R120); a value out of the
range of a finite `CELL_BITS` is none that can become available (43_arithmetic.md R110). -/
def State.supply (s : State) (vs : List Int) : State := { s with inq := s.inq ++ deliverable s.config vs }

end Sys2Proof.Machine
end

