-- ==== Sys2Proof/Machine/Run.lean ====
section
/-!
DEFINITION. The run and what the host reads after it (spec/42_step_loop.md R101, spec/60_exceptions.md R147).
-/

namespace Sys2Proof.Machine

/-- `run()`, of at most `fuel` steps: it repeats `step` while `rs = Running` and stops at an ended machine without a step
(42_step_loop.md R101, 45_halt.md R126). `LEN + 1` steps are enough where inputs are a queue (R100). -/
def run : Nat → State → Host.Outcome State Fault Refusal
  | 0, s => .next s
  | n + 1, s =>
    match s.rs with
    | .halted => .next s
    | .faulted => .next s
    | .running =>
      match step s with
      | .next t => run n t
      | .fault r => .fault r
      | .refused r => .refused r

/-- What `run()` reports (42_step_loop.md R101). -/
inductive Report where
  | halted (icount : Nat)
  | failed (fcause : Cause) (fsub : SubCause) (fip : Nat) (finfo : Int)
  /-- The run has not ended (45_halt.md R127). -/
  | notEnded
  deriving DecidableEq, Repr

/-- The report of a state. The fault record is read only when `rs = Faulted` (10_state.md R19, U17). -/
def State.report (s : State) : Report :=
  match s.rs with
  | .running => .notEnded
  | .halted => .halted s.icount
  | .faulted => .failed s.fcause s.fsub s.fip s.finfo

/-- `memory_snapshot()`: the contents of all cells, once a machine state exists (60_exceptions.md R147). -/
def State.memorySnapshot (s : State) : Option (List Int) :=
  if s.mem = [] then none else some s.mem

end Sys2Proof.Machine
end

