-- ==== Sys2Proof/Safety.lean ====
section
/-!
DEFINITION. What counts as a good end of a run, and the invariants of the machine in the terms claims use.
-/

namespace Sys2Proof.Machine

/-- The addresses an instruction resolves, in the order it resolves them: each source in position mode, then the destination
(41_operand_resolver.md R85). -/
def addressesOf : Instr → List Int
  | .add m0 m1 p0 p1 p2 => sourceAddress m0 p0 ++ sourceAddress m1 p1 ++ [p2]
  | .multiply m0 m1 p0 p1 p2 => sourceAddress m0 p0 ++ sourceAddress m1 p1 ++ [p2]
  | .input p0 => [p0]
  | .output m0 p0 => sourceAddress m0 p0
  | .halt => []
where
  /-- The address of a source, if it has one. -/
  sourceAddress : Mode → Int → List Int
    | .position, p => [p]
    | .immediate, _ => []

/-- A clean end: `rs = Halted`. A faulted run has no result (45_halt.md R127, 60_exceptions.md R143). -/
def State.endedCleanly (s : State) : Bool := decide (s.rs = .halted)

/-- Every value the machine holds is one its cells can hold, its Memory is no longer than `MAX_LEN`, and `CELL_BITS` is a legal
width (00_scope.md R4, 43_arithmetic.md R110). The clause on `inq` is what `load` and
`State.supply` leave: "the input boundary delivers only values in range" (log entry 10). -/
def State.valuesOk (s : State) : Bool :=
  s.config.valid && !tooLong s.config s.mem.length && Memory.wf s.config.cellBits s.mem &&
    s.inq.all (cellInRange s.config.cellBits) && s.outlog.all (cellInRange s.config.cellBits)

/-- How far the run has come: `ip` is at most `LEN` (10_state.md R16), every completed instruction has moved it by 1 to 4 cells
(R15, R20), and at most one value was emitted for each (44_io.md R119). -/
def State.progressOk (s : State) : Bool :=
  decide (s.ip ≤ s.mem.length ∧ s.icount ≤ s.ip ∧ s.ip ≤ 4 * s.icount ∧ s.outlog.length ≤ s.icount)

/-- The cell before `ip` holds a `halt` (45_halt.md R127). -/
def State.lastWasHalt (s : State) : Bool :=
  match s.ip with
  | 0 => false
  | n + 1 =>
    match s.mem[n]? with
    | some v => decide (decode v = .decoded ⟨.halt, []⟩)
    | none => false

/-- What the fault record may say, cause by cause (10_state.md R19, 60_exceptions.md R130 to R137). -/
def State.recordLegal (s : State) : Bool :=
  match s.fcause with
  | .none => false
  | .invalidProgram => false
  | .decodeError =>
    match s.mem[s.fip]? with
    | none => false
    | some v =>
      match decode v with
      | .decoded _ => false
      | .rejected e => decide (s.finfo = v ∧ s.fsub = subCauseOf e)
  | .addressOutOfBounds => decide (s.finfo < 0 ∨ (s.mem.length : Int) ≤ s.finfo)
  | .inputExhausted => decide (s.config.inputPolicy = .queue ∧ s.finfo = 0)
  | .overflow => decide (s.config.cellBits ≠ none ∧ s.finfo = 0)

/-- An ended run ended for a reason that its state shows (45_halt.md R127, 60_exceptions.md R137). -/
def State.endOk (s : State) : Bool :=
  match s.rs with
  | .running => true
  | .halted => s.lastWasHalt
  | .faulted => decide (s.fip = s.ip) && s.recordLegal

/-- The invariants together. -/
def State.inv (s : State) : Bool := s.valuesOk && s.progressOk && s.endOk

end Sys2Proof.Machine
end

