-- ==== Sys2Proof/Certificates/Slice0/Obligations.lean ====
section
/-!
DEFINITION. The statements for the provers, from the numbered rules of spec/. OBLIGATIONS.json lists them. `D<n>` is a row of
spec/92_eei_decisions.md: a choice the spec marks as its own.
-/

open Sys2Proof Sys2Proof.Machine

/-! ### The Decoder -/

/-- R51: the kind is the value modulo 100 and the mode of parameter `i` is the digit at decimal position `i + 2`; an instruction has
the mode digits of its own parameters and no more. -/
def Obligations.DecodedKindAndModesAreDigits : Prop :=
  ∀ (v : Int) (d : Decoded), decode v = .decoded d →
    0 ≤ v ∧ (d.kind.code : Int) = v % 100 ∧ d.modes.length = d.arity ∧
    ∀ (i : Nat) (m : Mode), d.modes[i]? = some m → (m.digit : Int) = v / 10 ^ (i + 2) % 10

/-- R54: a mode digit at a position the value does not reach is 0, so below 100 every parameter is in position mode, and 1, 2, 3, 4
are the four instructions with parameters, all in position mode. -/
def Obligations.AbsentModeDigitsArePosition : Prop :=
  (∀ v k : Nat, v < 10 ^ k → dig v k = 0) ∧
  (∀ (v : Int) (d : Decoded), v < 100 → decode v = .decoded d → ∀ m ∈ d.modes, m = .position) ∧
  decode 1 = .decoded ⟨.add, [.position, .position, .position]⟩ ∧
  decode 2 = .decoded ⟨.multiply, [.position, .position, .position]⟩ ∧
  decode 3 = .decoded ⟨.input, [.position]⟩ ∧
  decode 4 = .decoded ⟨.output, [.position]⟩

/-- R60: a non-negative value of any other kind is a `DecodeError` with sub-cause `UnknownKind`, and the step that meets it changes
no cell of Memory. The fault record is held as D6 says. -/
def Obligations.UnknownKindsAreRefused : Prop :=
  ∀ v : Int, 0 ≤ v → v % 100 ≠ 1 → v % 100 ≠ 2 → v % 100 ≠ 3 → v % 100 ≠ 4 → v % 100 ≠ 99 →
    decode v = .rejected .unknownKind ∧
    ∀ s : State, s.rs = .running → s.mem[s.ip]? = some v →
      ∃ t, step s = .next t ∧ t.rs = .faulted ∧ t.fcause = .decodeError ∧ t.fsub = .unknownKind ∧ t.mem = s.mem

/-- The Decoder's refusals, sub-cause by sub-cause and in the order it makes its checks: negative value, unknown kind, then per
parameter in ascending index the digit's range before the destination check. The last two sub-causes, the negative case and the
order are the spec's own decisions (40_decoder.md "Order of the Decoder's checks"; D2, D3, D4, D8). -/
def Obligations.DecoderRefusesInOrder : Prop :=
  ∀ (v : Int) (e : DecodeError), decode v = .rejected e ↔
    (v < 0 ∧ e = .negativeOpcode) ∨
    (0 ≤ v ∧ (∀ k : Kind, v % 100 ≠ k.code) ∧ e = .unknownKind) ∨
    (0 ≤ v ∧ ∃ (k : Kind) (j : Nat) (r : Role), v % 100 = k.code ∧ k.roles[j]? = some r ∧
      (∀ i r', i < j → k.roles[i]? = some r' →
        v / 10 ^ (i + 2) % 10 = 0 ∨ (v / 10 ^ (i + 2) % 10 = 1 ∧ r' = .source)) ∧
      ((2 ≤ v / 10 ^ (j + 2) % 10 ∧ e = .invalidMode) ∨
       (v / 10 ^ (j + 2) % 10 = 1 ∧ r = .destination ∧ e = .writeModeNonZero)))

/-- The legal opcode values are the twelve of the table of 30_encoding.md section 3, each with any surplus digits above its last mode
digit, and no others. The spec derives this from its rules (D5 for the surplus digits). -/
def Obligations.LegalOpcodeValuesAreExactlyThese : Prop :=
  ∀ v : Int, (∃ d, decode v = .decoded d) ↔
    ∃ c ∈ [((1 : Int), 5), (101, 5), (1001, 5), (1101, 5), (2, 5), (102, 5), (1002, 5), (1102, 5), (3, 3), (4, 3), (104, 3), (99, 2)],
      ∃ high : Nat, v = c.1 + high * 10 ^ c.2

/-- Decode and encode agree: the cells of an instruction, whatever follows them and whatever stands in the digits of the opcode value
that the Decoder does not examine (D5), are read back as that instruction, with every mode and every raw value. -/
def Obligations.DecodeEncodeAgree : Prop :=
  ∀ (i : Instr) (high : Nat) (rest : List Int),
    decodeCells (encode i ++ rest) = .decoded i rest ∧
    decodeCells ((encodeOpcodeHigh i high : Int) :: i.params ++ rest) = .decoded i rest

/-- The other direction: whatever the Decoder reads as an instruction is that instruction's encoding, up to the digits it does not
examine (D5), followed by the rest of the cells. -/
def Obligations.DecodedCellsEncodeBack : Prop :=
  ∀ (cells rest : List Int) (i : Instr), decodeCells cells = .decoded i rest →
    ∃ high : Nat, cells = (encodeOpcodeHigh i high : Int) :: i.params ++ rest

/-- Some words of 40_decoder.md section 4 and of 95_test_vectors.md part 1 and 2, read as whole instructions: one or more for each
instruction and each refusal. The readings of 10099, of 10201, of 103 and of -99 are the spec's own choices: D5, D2 and D8, D3 and
D4 (log entry 15). -/
def Obligations.WordsOfTheSpecDecode : Prop :=
  decodeCells [1002, 4, 3, 4, 33] = .decoded (.multiply .position .immediate 4 3 4) [33] ∧
  decodeCells [1101, 100, -1, 4, 0] = .decoded (.add .immediate .immediate 100 (-1) 4) [0] ∧
  decodeCells [3, 0, 4, 0, 99] = .decoded (.input 0) [4, 0, 99] ∧
  decodeCells [104, -5, 99] = .decoded (.output .immediate (-5)) [99] ∧
  decodeCells [10099] = .decoded .halt [] ∧
  decodeCells [0] = .rejected .unknownKind 0 ∧
  decodeCells [10201, 0, 0, 0] = .rejected .invalidMode 10201 ∧
  decodeCells [103, 0, 99] = .rejected .writeModeNonZero 103 ∧
  decodeCells [-99] = .rejected .negativeOpcode (-99) ∧
  decodeCells [1, 0, 0] = .missing 3

/-- R56, R73: the five kinds, with their numbers, arities, roles and widths; a number that is none of the five names no kind, and an
opcode value selects the kind whose number it is modulo 100. -/
def Obligations.InstructionTableIsTheSpecs : Prop :=
  (∀ (v : Int) (d : Decoded), decode v = .decoded d → 0 ≤ v ∧ (d.kind.code : Int) = v % 100) ∧
  (∀ (c : Nat) (k : Kind), Kind.ofCode c = some k ↔ c = k.code) ∧
  Kind.add.code = 1 ∧ Kind.add.arity = 3 ∧ Kind.add.roles = [.source, .source, .destination] ∧ Kind.add.width = 4 ∧
  Kind.multiply.code = 2 ∧ Kind.multiply.arity = 3 ∧ Kind.multiply.roles = [.source, .source, .destination] ∧
    Kind.multiply.width = 4 ∧
  Kind.input.code = 3 ∧ Kind.input.arity = 1 ∧ Kind.input.roles = [.destination] ∧ Kind.input.width = 2 ∧
  Kind.output.code = 4 ∧ Kind.output.arity = 1 ∧ Kind.output.roles = [.source] ∧ Kind.output.width = 2 ∧
  Kind.halt.code = 99 ∧ Kind.halt.arity = 0 ∧ Kind.halt.roles = [] ∧ Kind.halt.width = 1

/-! ### Memory and the Operand resolver -/

/-- R31, R50: `MemRead` answers the cell inside Memory and raises `AddressOutOfBounds` outside; a position operand is read by it, and
so are the opcode cell and the parameter cells of a fetched instruction, which follow one another in ascending order. -/
def Obligations.MemReadAnswersTheCell : Prop :=
  ∀ (m : Memory) (a : Int),
    ((a < 0 ∨ (m.length : Int) ≤ a) → memRead m a = .faults (.addressOutOfBounds a)) ∧
    (0 ≤ a → a < m.length → ∃ v, m[a.toNat]? = some v ∧ memRead m a = .completes v) ∧
    readOperand m a .position = memRead m a ∧
    ∀ (ip : Nat) (i : Instr), fetch m ip = .completes i →
      (∃ v, memRead m ip = .completes v ∧ decode v = .decoded ⟨i.kind, i.modes⟩) ∧
      i.width = 1 + i.params.length ∧
      ∀ (j : Nat) (p : Int), i.params[j]? = some p → memRead m (ip + 1 + j : Nat) = .completes p

/-- 20_memory.md section 1: `MemWrite` stores one whole cell inside Memory, which then reads as the value, while every other cell
reads as before and the length stays; outside Memory it raises `AddressOutOfBounds`. -/
def Obligations.MemWriteStoresOneCell : Prop :=
  ∀ (s : State) (a v : Int),
    ((a < 0 ∨ (s.mem.length : Int) ≤ a) → memWrite s a v = .faults (.addressOutOfBounds a)) ∧
    (0 ≤ a → a < s.mem.length → ∃ t, memWrite s a v = .completes t ∧ t = { s with mem := t.mem } ∧
      t.mem.length = s.mem.length ∧ memRead t.mem a = .completes v ∧
      ∀ b, b ≠ a → memRead t.mem b = memRead s.mem b)

/-- R80, R81: the three cases of the resolver. -/
def Obligations.ResolverAnswersByMode : Prop :=
  ∀ (m : Memory) (raw : Int),
    (∀ v, 0 ≤ raw → m[raw.toNat]? = some v → readOperand m raw .position = .completes v) ∧
    readOperand m raw .immediate = .completes raw ∧
    (0 ≤ raw → raw < m.length → writeAddress m raw = .completes raw) ∧
    ((raw < 0 ∨ (m.length : Int) ≤ raw) →
      readOperand m raw .position = .faults (.addressOutOfBounds raw) ∧
      writeAddress m raw = .faults (.addressOutOfBounds raw))

/-- 20_memory.md section 1: an instruction that resolves an address outside Memory ends in `AddressOutOfBounds`; that it reports such
an address of its own is the spec's own choice (D18, log entry 15); nothing is stored, clamped, wrapped or grown, and no
further instruction executes. -/
def Obligations.OutOfBoundsEndsTheRun : Prop :=
  ∀ (s : State) (i : Instr) (a : Int), a ∈ addressesOf i → (a < 0 ∨ (s.mem.length : Int) ≤ a) →
    ∃ t, exec i s = .next t ∧ t.rs = .faulted ∧ t.fcause = .addressOutOfBounds ∧ t.finfo ∈ addressesOf i ∧
      (t.finfo < 0 ∨ (s.mem.length : Int) ≤ t.finfo) ∧ t.mem = s.mem ∧ ∀ u, step t ≠ .next u

/-! ### Load and reset -/

/-- R160: with no finite parameter, `load` fails for the empty program and builds the fresh state for every other. -/
def Obligations.LoadBuildsTheFreshState : Prop :=
  ∀ (c : Config) (inputs program : List Int), c.cellBits = none → c.maxLen = none →
    (program = [] → load c inputs program = .failed .invalidProgram) ∧
    (program ≠ [] → ∃ s, load c inputs program = .loaded s ∧ s.mem = program ∧ s.ip = 0 ∧ s.rs = .running ∧ s.icount = 0)

/-- 70_reset_and_hazards.md section 1: when exactly `load` fails, under any parameters (D1, D17), and that otherwise the machine has
the parameters it was given, of the inputs those in range (D1, log entry 10), and is at the beginning of a run. -/
def Obligations.LoadFailsExactlyWhen : Prop :=
  ∀ (c : Config) (inputs program : List Int),
    (load c inputs program = .failed .invalidProgram ↔
      program = [] ∨ (∃ k, c.maxLen = some k ∧ k < program.length) ∨
      ∃ n, c.cellBits = some n ∧ ∃ v ∈ program, v < -(2 ^ (n - 1)) ∨ 2 ^ (n - 1) ≤ v) ∧
    (load c inputs program ≠ .failed .invalidProgram →
      ∃ s, load c inputs program = .loaded s ∧ s.config = c ∧ s.mem = program ∧ s.ip = 0 ∧ s.rs = .running ∧ s.icount = 0 ∧
        s.inq = inputs.filter (cellInRange c.cellBits) ∧ s.outlog = [])

/-- Before the first `load` no machine state exists, and the step is refused by name (D15; log entry 2). -/
def Obligations.NoStepBeforeLoad : Prop :=
  State.reset.mem = [] ∧ State.reset.ip = 0 ∧ State.reset.rs = .running ∧ State.reset.icount = 0 ∧ State.reset.outlog = [] ∧
  ∀ s : State, s.mem = [] → step s = .refused .noProgram

/-! ### The step -/

/-- 42_step_loop.md section 1: when the cells at `ip` decode to an instruction, the step is that instruction's execution at the same
state; nothing is done around it. -/
def Obligations.StepRunsTheDecodedInstruction : Prop :=
  ∀ (s : State) (i : Instr) (rest : List Int), s.rs = .running → decodeCells (s.mem.drop s.ip) = .decoded i rest →
    step s = exec i s

/-- 42_step_loop.md section 1: the loop's fetch, cell by cell, reads what the Decoder reads from the cells at `ip`, and reports the
first cell it lacks. -/
def Obligations.FetchReadsTheCellsAtIp : Prop :=
  ∀ (m : Memory) (ip : Nat),
    (∀ i rest, decodeCells (m.drop ip) = .decoded i rest → fetch m ip = .completes i) ∧
    (∀ e v, decodeCells (m.drop ip) = .rejected e v → fetch m ip = .faults (.decodeError e v)) ∧
    (∀ k, decodeCells (m.drop ip) = .missing k → fetch m ip = .faults (.addressOutOfBounds (ip + k : Nat)))

/-- 42_step_loop.md section 1: the opcode fetch fails exactly past the last cell, with `fip` and `finfo` the pointer; a pointer that a
run can reach is then `LEN` itself. This is the whole next state, so it says too that `fsub` stays, which is the model's choice, log
entry 8. -/
def Obligations.OpcodeFetchFailsPastTheEnd : Prop :=
  ∀ s : State, s.rs = .running → s.mem ≠ [] →
    (s.mem.length ≤ s.ip →
      step s = .next { s with rs := .faulted, fcause := .addressOutOfBounds, fip := s.ip, finfo := s.ip } ∧
      (s.progressOk = true → s.ip = s.mem.length)) ∧
    (s.ip < s.mem.length → ∃ v, memRead s.mem s.ip = .completes v ∧ s.mem[s.ip]? = some v)

/-- R92: a `DecodeError` ends the step, whether or not the parameter cells exist: nothing is read, asked or written after it. -/
def Obligations.DecodeErrorEndsTheStep : Prop :=
  ∀ (s : State) (v : Int) (e : DecodeError), s.rs = .running → s.mem[s.ip]? = some v → decode v = .rejected e →
    ∃ t, step s = .next t ∧ t.rs = .faulted ∧ t.fcause = .decodeError ∧ t.mem = s.mem ∧ t.ip = s.ip ∧ t.inq = s.inq ∧
      t.outlog = s.outlog ∧ t.icount = s.icount

/-- 42_step_loop.md section 1: all parameter cells are fetched, in ascending order (D8), before any is resolved; the first outside
Memory ends the step with its address, and one is outside exactly when the instruction's cells run past the end. The whole next
state is given, so it says too that `fsub` stays, which is the model's choice, log entry 8. -/
def Obligations.ParameterFetchIsBoundsChecked : Prop :=
  ∀ (s : State) (v : Int) (d : Decoded), s.rs = .running → s.mem[s.ip]? = some v → decode v = .decoded d →
    (∀ j, j < d.arity → (∀ k, k < j → s.ip + 1 + k < s.mem.length) → s.mem.length ≤ s.ip + 1 + j →
      step s = .next { s with rs := .faulted, fcause := .addressOutOfBounds, fip := s.ip, finfo := (s.ip + 1 + j : Nat) }) ∧
    ((∃ j, j < d.arity ∧ s.mem.length ≤ s.ip + 1 + j) ↔ s.mem.length < s.ip + d.width) ∧
    (s.ip + d.width ≤ s.mem.length →
      ∃ i, fetch s.mem s.ip = .completes i ∧ i.kind = d.kind ∧ i.params = (s.mem.drop (s.ip + 1)).take d.arity)

/-- 45_halt.md, 60_exceptions.md section 4: in `Halted` and in `Faulted` there is no step, and `run()` reports the same end again
(D14). The model stops such a step by name (log entry 6). -/
def Obligations.EndedMachineTakesNoStep : Prop :=
  ∀ s : State,
    (s.mem ≠ [] → s.rs = .halted → step s = .fault .halted) ∧
    (s.mem ≠ [] → s.rs = .faulted → step s = .fault .faulted) ∧
    (s.rs ≠ .running → ∀ n, run n s = .next s)

/-- 10_state.md section 4: the transitions of `rs`. What completed is told from the counter (D10), and a hold from the state being the
same (the model's choice, log entry 7). -/
def Obligations.RunStateTransitions : Prop :=
  ∀ s t : State,
    (s.rs ≠ .running → step s ≠ .next t) ∧
    (step s = .next t →
      (t.rs = .halted ↔ fetch s.mem s.ip = .completes .halt) ∧
      (t.rs = .running ↔ (t.icount = s.icount + 1 ∧ fetch s.mem s.ip ≠ .completes .halt) ∨ t = s) ∧
      (t.rs = .faulted ↔ t.icount = s.icount ∧ t ≠ s))

/-- 42_step_loop.md section 3, the complete list of outcomes: a step from `Running` completes, halts, faults or holds, and here is
all that each changes: the cell stored to is the one `writeAddress` answers, the value is that of the operands or of the boundary,
and the emitted value is that of the operand. The counter (D10), the run state after a fault (D6) and `ip` after `halt` (D9, log
entry 11) are the spec's own choices; that a hold is a step to the same state is the model's, log entry 7,
and so is that an `input` holds too where the first value is out of range, log entry 10. -/
def Obligations.StepHasOneOfFourOutcomes : Prop :=
  ∀ s : State, s.rs = .running → s.mem ≠ [] → ∃ t, step s = .next t ∧
    ((∃ i, fetch s.mem s.ip = .completes i ∧
        t = { s with mem := t.mem, ip := s.ip + i.width, icount := s.icount + 1, inq := t.inq, outlog := t.outlog } ∧
        ((∃ m0 m1 p0 p1 p2 a b d v, readOperand s.mem p0 m0 = .completes a ∧ readOperand s.mem p1 m1 = .completes b ∧
            writeAddress s.mem p2 = .completes d ∧
            ((i = .add m0 m1 p0 p1 p2 ∧ v = a + b) ∨ (i = .multiply m0 m1 p0 p1 p2 ∧ v = a * b)) ∧
            t.mem = s.mem.set d.toNat v ∧ t.inq = s.inq ∧ t.outlog = s.outlog) ∨
         (∃ p0 d x, i = .input p0 ∧ writeAddress s.mem p0 = .completes d ∧ s.inq = x :: t.inq ∧
            t.mem = s.mem.set d.toNat x ∧ t.outlog = s.outlog) ∨
         (∃ m0 p0 v, i = .output m0 p0 ∧ readOperand s.mem p0 m0 = .completes v ∧
            t.mem = s.mem ∧ t.inq = s.inq ∧ t.outlog = s.outlog ++ [v]))) ∨
     (fetch s.mem s.ip = .completes .halt ∧ t = { s with ip := s.ip + 1, rs := .halted, icount := s.icount + 1 }) ∨
     (t = { s with rs := .faulted, fcause := t.fcause, fsub := t.fsub, fip := s.ip, finfo := t.finfo } ∧
        t.fcause ≠ .none ∧ t.fcause ≠ .invalidProgram) ∨
     (t = s ∧ s.config.inputPolicy = .blocking ∧ s.nextInput = none ∧ ∃ p0, fetch s.mem s.ip = .completes (.input p0)))

/-! ### The instructions -/

/-- 43_arithmetic.md section 1: `add` stores the exact sum (D1), advances by 4 and counts 1 (D10); this is its whole next state. -/
def Obligations.AddStoresTheSum : Prop :=
  ∀ (s : State) (m0 m1 : Mode) (p0 p1 p2 a b : Int),
    readOperand s.mem p0 m0 = .completes a → readOperand s.mem p1 m1 = .completes b →
    0 ≤ p2 → p2 < s.mem.length → cellInRange s.config.cellBits (a + b) = true →
    exec (.add m0 m1 p0 p1 p2) s =
      .next { s with mem := s.mem.set p2.toNat (a + b), ip := s.ip + 4, icount := s.icount + 1 }

/-- 43_arithmetic.md section 1: `multiply` stores the exact product (D1), advances by 4 and counts 1 (D10); this is its whole next
state. -/
def Obligations.MultiplyStoresTheProduct : Prop :=
  ∀ (s : State) (m0 m1 : Mode) (p0 p1 p2 a b : Int),
    readOperand s.mem p0 m0 = .completes a → readOperand s.mem p1 m1 = .completes b →
    0 ≤ p2 → p2 < s.mem.length → cellInRange s.config.cellBits (a * b) = true →
    exec (.multiply m0 m1 p0 p1 p2) s =
      .next { s with mem := s.mem.set p2.toNat (a * b), ip := s.ip + 4, icount := s.icount + 1 }

/-- 44_io.md section 1: `input` takes the next value of the environment, stores it unchanged, advances by 2 and counts 1 (D10); this
is its whole next state, under either policy. The value is any that a cell can hold (D1): every integer with no `CELL_BITS`. -/
def Obligations.InputStoresTheNextValue : Prop :=
  ∀ (s : State) (p0 x : Int) (rest : List Int), s.inq = x :: rest → cellInRange s.config.cellBits x = true →
    0 ≤ p0 → p0 < s.mem.length →
    exec (.input p0) s =
      .next { s with mem := s.mem.set p0.toNat x, ip := s.ip + 2, icount := s.icount + 1, inq := rest }

/-- 44_io.md section 1: `output` emits the operand's value, advances by 2 and counts 1 (D10); this is its whole next state. -/
def Obligations.OutputEmitsTheOperand : Prop :=
  ∀ (s : State) (m0 : Mode) (p0 a : Int), readOperand s.mem p0 m0 = .completes a →
    exec (.output m0 p0) s = .next { s with ip := s.ip + 2, icount := s.icount + 1, outlog := s.outlog ++ [a] }

/-- 45_halt.md: `halt` always completes; it sets `rs` to `Halted` and counts itself (D10), and changes neither Memory nor the boundaries
nor the fault record. The value of `ip` after it is the spec's own choice (D9, C5), on which no claim should rest; the model's, log
entry 11, is `ip + 1`. -/
def Obligations.HaltHaltsTheRun : Prop :=
  ∀ s : State, exec .halt s = .next { s with rs := .halted, ip := s.ip + 1, icount := s.icount + 1 }

/-- 43_arithmetic.md sections 1 and 3, 60_exceptions.md section 3: the faults of `add` and `multiply`, in the order they are tested
(D8): source 0, source 1, the write address, and last, under a finite `CELL_BITS` alone (D1), `Overflow`. That such a fault leaves
`fsub` (`takeFault`) is the model's choice, log entry 8. -/
def Obligations.ArithmeticFaultsInOrder : Prop :=
  ∀ (s : State) (m0 m1 : Mode) (p0 p1 p2 : Int) (i : Instr) (f : Int → Int → Int),
    (i = .add m0 m1 p0 p1 p2 ∧ f = (fun a b => a + b)) ∨ (i = .multiply m0 m1 p0 p1 p2 ∧ f = (fun a b => a * b)) →
    (m0 = .position → (p0 < 0 ∨ (s.mem.length : Int) ≤ p0) → exec i s = .next (takeFault (.addressOutOfBounds p0) s)) ∧
    ∀ a, readOperand s.mem p0 m0 = .completes a →
      (m1 = .position → (p1 < 0 ∨ (s.mem.length : Int) ≤ p1) → exec i s = .next (takeFault (.addressOutOfBounds p1) s)) ∧
      ∀ b, readOperand s.mem p1 m1 = .completes b →
        ((p2 < 0 ∨ (s.mem.length : Int) ≤ p2) → exec i s = .next (takeFault (.addressOutOfBounds p2) s)) ∧
        (0 ≤ p2 → p2 < s.mem.length →
          (∀ n, s.config.cellBits = some n → (f a b < -(2 ^ (n - 1)) ∨ 2 ^ (n - 1) ≤ f a b) →
            exec i s = .next (takeFault .overflow s)) ∧
          (s.config.cellBits = none → exec i s ≠ .next (takeFault .overflow s)))

/-- 44_io.md section 2: with the queue policy and nothing left, an `input` whose address is inside Memory faults with `InputExhausted`, stores
nothing and does not advance; the address is tested first. That the fault of the address leaves `fsub` (`takeFault`) is the model's
choice, log entry 8. -/
def Obligations.ExhaustedInputFaultsAfterTheAddressCheck : Prop :=
  ∀ (s : State) (p0 : Int),
    (0 ≤ p0 → p0 < s.mem.length → s.inq = [] → s.config.inputPolicy = .queue →
      ∃ t, exec (.input p0) s = .next t ∧ t.rs = .faulted ∧ t.fcause = .inputExhausted ∧ t.fip = s.ip ∧ t.mem = s.mem ∧
        t.ip = s.ip) ∧
    ((p0 < 0 ∨ (s.mem.length : Int) ≤ p0) → exec (.input p0) s = .next (takeFault (.addressOutOfBounds p0) s))

/-- 44_io.md section 1: an `output` faults exactly when its operand is in position mode and outside Memory, and then emits nothing;
it never holds. That the fault leaves `fsub` (`takeFault`) is the model's choice, log entry 8. -/
def Obligations.OutputFaultsOnlyOutOfBounds : Prop :=
  ∀ (s : State) (m0 : Mode) (p0 : Int),
    (m0 = .position ∧ (p0 < 0 ∨ (s.mem.length : Int) ≤ p0) ∧
      exec (.output m0 p0) s = .next (takeFault (.addressOutOfBounds p0) s)) ∨
    ((m0 = .immediate ∨ (0 ≤ p0 ∧ p0 < s.mem.length)) ∧
      ∃ t, exec (.output m0 p0) s = .next t ∧ t.rs = s.rs ∧ t.icount = s.icount + 1)

/-- 44_io.md section 2: with the blocking policy and no value available, an `input` in bounds holds: the state does not change, for
however many steps; only a value made available lifts the hold, and the step then completes with the first such value. That a hold
is a step to the same state is the model's choice, log entry 7 (D20); that under a finite `CELL_BITS` (D1) an offer out of range is
passed over, so that the first value in range is the one stored, is the model's choice too, log entry 10. -/
def Obligations.InputHoldsUntilSupplied : Prop :=
  ∀ (s : State) (p0 : Int), s.rs = .running → s.config.inputPolicy = .blocking → s.inq = [] →
    fetch s.mem s.ip = .completes (.input p0) → 0 ≤ p0 → p0 < s.mem.length →
    step s = .next s ∧ (∀ n, run n s = .next s) ∧
    ∀ (vs : List Int) (x : Int) (xs : List Int), deliverable s.config vs = x :: xs →
      ∃ t, step (s.supply vs) = .next t ∧ t.mem = s.mem.set p0.toNat x ∧ t.ip = s.ip + 2 ∧ t.inq = xs ∧ t.rs = .running

/-- What `add` and `multiply` leave unchanged: the parameters, both boundaries, the run state and the fault record unless they fault,
and every cell but the one at the address `writeAddress` answers. On a fault all of Memory, `ip` and the counter stay. -/
def Obligations.ArithmeticFrame : Prop :=
  ∀ (s t : State) (m0 m1 : Mode) (p0 p1 p2 : Int) (i : Instr),
    i = .add m0 m1 p0 p1 p2 ∨ i = .multiply m0 m1 p0 p1 p2 → exec i s = .next t →
    t.config = s.config ∧ t.inq = s.inq ∧ t.outlog = s.outlog ∧ t.mem.length = s.mem.length ∧
    ((t.rs = s.rs ∧ t.fcause = s.fcause ∧ t.fsub = s.fsub ∧ t.fip = s.fip ∧ t.finfo = s.finfo) ∨
     (t.rs = .faulted ∧ t.mem = s.mem ∧ t.ip = s.ip ∧ t.icount = s.icount)) ∧
    (∀ d, writeAddress s.mem p2 = .completes d → ∀ a, a ≠ d → memRead t.mem a = memRead s.mem a) ∧
    (∀ r, writeAddress s.mem p2 = .faults r → ∀ a, memRead t.mem a = memRead s.mem a)

/-- What `input` leaves unchanged: the parameters, the output boundary, all inputs but the first, the run state and the fault record
unless it faults, and every cell but the one at the address `writeAddress` answers; that one too where no value was consumed. -/
def Obligations.InputFrame : Prop :=
  ∀ (s t : State) (p0 : Int), exec (.input p0) s = .next t →
    t.config = s.config ∧ t.outlog = s.outlog ∧ t.mem.length = s.mem.length ∧ (t.inq = s.inq ∨ ∃ x, s.inq = x :: t.inq) ∧
    (t.inq = s.inq → t.mem = s.mem) ∧
    ((t.rs = s.rs ∧ t.fcause = s.fcause ∧ t.fsub = s.fsub ∧ t.fip = s.fip ∧ t.finfo = s.finfo) ∨
     (t.rs = .faulted ∧ t.mem = s.mem ∧ t.ip = s.ip ∧ t.icount = s.icount ∧ t.inq = s.inq)) ∧
    (∀ d, writeAddress s.mem p0 = .completes d → ∀ a, a ≠ d → memRead t.mem a = memRead s.mem a) ∧
    (∀ r, writeAddress s.mem p0 = .faults r → ∀ a, memRead t.mem a = memRead s.mem a)

/-- What `output` and `halt` leave unchanged: the parameters, the inputs, every cell of Memory; the fault record and what was emitted
before, unless the instruction writes them. -/
def Obligations.OutputAndHaltFrame : Prop :=
  ∀ (s t : State) (i : Instr), (∃ m0 p0, i = .output m0 p0) ∨ i = .halt → exec i s = .next t →
    t.config = s.config ∧ t.inq = s.inq ∧ t.mem.length = s.mem.length ∧ (∀ a, memRead t.mem a = memRead s.mem a) ∧
    (i = .halt → t.outlog = s.outlog ∧ t.rs = .halted) ∧
    (t.outlog = s.outlog ∨ ∃ v, t.outlog = s.outlog ++ [v]) ∧
    ((t.fcause = s.fcause ∧ t.fsub = s.fsub ∧ t.fip = s.fip ∧ t.finfo = s.finfo ∧ (i ≠ .halt → t.rs = s.rs)) ∨
     (t.rs = .faulted ∧ t.outlog = s.outlog ∧ t.ip = s.ip ∧ t.icount = s.icount))

/-- 43_arithmetic.md section 3: "swapping the two source parameters (with their modes) never changes the result stored", by the exact
laws of D1, wherever both sources resolve. -/
def Obligations.SourcesMayBeSwapped : Prop :=
  ∀ (s : State) (m0 m1 : Mode) (p0 p1 p2 : Int),
    (∃ a b, readOperand s.mem p0 m0 = .completes a ∧ readOperand s.mem p1 m1 = .completes b) →
    exec (.add m0 m1 p0 p1 p2) s = exec (.add m1 m0 p1 p0 p2) s ∧
    exec (.multiply m0 m1 p0 p1 p2) s = exec (.multiply m1 m0 p1 p0 p2) s

/-- 20_memory.md section 4: a store is seen by the very next fetch. Where `add`, `multiply` or `input` stores into a cell of the
instruction after it, that instruction is decoded from the stored value (its opcode cell) or has it as that parameter (a parameter
cell). The range of an input value is the spec's own choice (D1, log entry 10). -/
def Obligations.NextFetchSeesTheStore : Prop :=
  ∀ (s : State) (i : Instr) (d v : Int),
    ((∃ m0 m1 p0 p1 a b, readOperand s.mem p0 m0 = .completes a ∧ readOperand s.mem p1 m1 = .completes b ∧
      ((i = .add m0 m1 p0 p1 d ∧ v = a + b) ∨ (i = .multiply m0 m1 p0 p1 d ∧ v = a * b))) ∨
     (∃ rest, i = .input d ∧ s.inq = v :: rest)) →
    0 ≤ d → d < s.mem.length → cellInRange s.config.cellBits v = true →
    ∃ t, exec i s = .next t ∧ t.ip = s.ip + i.width ∧
      (d = t.ip →
        (∀ e, decode v = .rejected e → fetch t.mem t.ip = .faults (.decodeError e v)) ∧
        (∀ j, fetch t.mem t.ip = .completes j → decode v = .decoded ⟨j.kind, j.modes⟩)) ∧
      (∀ (j : Instr) (k : Nat), fetch t.mem t.ip = .completes j → k < j.params.length → d = (t.ip + 1 + k : Nat) →
        j.params[k]? = some v)

/-- 43_arithmetic.md section 3: under a finite `CELL_BITS` "the input boundary delivers only values in range" (D1). What `load` and
the environment's supply make available is in range, and all of what is offered in range; a completed `input` stored the first
available value, which is in range; a value out of range at the boundary, which no `load` or supply puts there, is not delivered.
That an offer out of range is passed over is the model's choice, log entry 10. The last clause, what an `input` does whose first
value is out of range, is the model's choice too: that no value can then be supplied is log entry 10, that the fault leaves `fsub`
is log entry 8, and that the hold is a step to the same state is log entry 7 (the spec has a step that is not enabled, D20). -/
def Obligations.BoundaryDeliversOnlyValuesInRange : Prop :=
  (∀ v : Int, cellInRange none v = true ∧
    ∀ n : Nat, cellInRange (some n) v = true ↔ -(2 ^ (n - 1)) ≤ v ∧ v ≤ 2 ^ (n - 1) - 1) ∧
  (∀ (c : Config) (inputs program : List Int) (s : State), load c inputs program = .loaded s →
    (∀ v ∈ s.inq, cellInRange c.cellBits v = true) ∧
    ((∀ v ∈ inputs, cellInRange c.cellBits v = true) → s.inq = inputs)) ∧
  (∀ (s : State) (vs : List Int), (∀ v ∈ s.inq, cellInRange s.config.cellBits v = true) →
    (∀ v ∈ (s.supply vs).inq, cellInRange s.config.cellBits v = true) ∧
    ((∀ v ∈ vs, cellInRange s.config.cellBits v = true) → (s.supply vs).inq = s.inq ++ vs)) ∧
  (∀ (s t : State) (p0 : Int), fetch s.mem s.ip = .completes (.input p0) → step s = .next t → t.icount = s.icount + 1 →
    ∃ x, s.inq = x :: t.inq ∧ cellInRange s.config.cellBits x = true ∧ t.mem[p0.toNat]? = some x) ∧
  (∀ (s : State) (p0 x : Int) (rest : List Int), s.inq = x :: rest → cellInRange s.config.cellBits x = false →
    0 ≤ p0 → p0 < s.mem.length →
    (s.config.inputPolicy = .queue → exec (.input p0) s = .next (takeFault .inputExhausted s)) ∧
    (s.config.inputPolicy = .blocking → exec (.input p0) s = .next s))

/-! ### The run -/

/-- R98: `ip` is changed by `load`, to 0, and by the advance by the fetched instruction's width, and by nothing else. -/
def Obligations.IpChangesOnlyByTheAdvance : Prop :=
  (∀ s t : State, step s = .next t →
    t.ip = s.ip ∨ ∃ i, fetch s.mem s.ip = .completes i ∧ t.ip = s.ip + i.width) ∧
  (∀ (c : Config) (inputs program : List Int) (s : State), load c inputs program = .loaded s → s.ip = 0)

/-- R119: inputs are consumed and outputs are emitted one per completed `input` and `output`, in order, and by no other instruction
and no fault; an output emits what Memory holds when it executes. -/
def Obligations.IoEventsFollowTheInstructions : Prop :=
  ∀ s t : State, step s = .next t →
    ((t.inq = s.inq ∧ t.outlog = s.outlog) ∨
     (∃ p0 x, fetch s.mem s.ip = .completes (.input p0) ∧ s.inq = x :: t.inq ∧ t.outlog = s.outlog ∧ t.rs = .running) ∨
     (∃ m0 p0 v, fetch s.mem s.ip = .completes (.output m0 p0) ∧ readOperand s.mem p0 m0 = .completes v ∧
        t.outlog = s.outlog ++ [v] ∧ t.inq = s.inq ∧ t.rs = .running)) ∧
    (∀ p0, fetch s.mem s.ip = .completes (.input p0) → t.icount = s.icount + 1 → ∃ x, s.inq = x :: t.inq) ∧
    (∀ m0 p0, fetch s.mem s.ip = .completes (.output m0 p0) → t.icount = s.icount + 1 → ∃ v, t.outlog = s.outlog ++ [v]) ∧
    (t.rs = .faulted → t.inq = s.inq ∧ t.outlog = s.outlog)

/-- 60_exceptions.md section 4: taking a fault writes the run state and the fault record (D6, D18) and nothing else; that the
sub-cause is left as it was by another fault is the model's choice, log entry 8. -/
def Obligations.FaultEntryWritesOnlyTheRecord : Prop :=
  ∀ s t : State, step s = .next t → t.rs = .faulted →
    t = { s with rs := .faulted, fcause := t.fcause, fsub := t.fsub, fip := s.ip, finfo := t.finfo } ∧
    (t.fcause = .decodeError →
      ∃ v e, s.mem[s.ip]? = some v ∧ decode v = .rejected e ∧ t.finfo = v ∧ t.fsub = subCauseOf e) ∧
    (t.fcause ≠ .decodeError → t.fsub = s.fsub) ∧
    (t.fcause = .addressOutOfBounds → t.finfo < 0 ∨ (s.mem.length : Int) ≤ t.finfo) ∧
    (t.fcause = .inputExhausted ∨ t.fcause = .overflow → t.finfo = 0)

/-- 42_step_loop.md section 3, 60_exceptions.md sections 1 and 5: what the host reads. A running machine has no report; a halted one
reports its count; a faulted one its record, under the codes of the spec (D7). A snapshot is the whole of Memory once it exists. -/
def Obligations.HostReadsTheEndOfTheRun : Prop :=
  (∀ s : State, (s.rs = .running → s.report = .notEnded) ∧ (s.rs = .halted → s.report = .halted s.icount) ∧
    (s.rs = .faulted → s.report = .failed s.fcause s.fsub s.fip s.finfo) ∧
    (s.mem ≠ [] → s.memorySnapshot = some s.mem)) ∧
  Cause.invalidProgram.code = 1 ∧ Cause.decodeError.code = 2 ∧ Cause.addressOutOfBounds.code = 3 ∧
  Cause.inputExhausted.code = 4 ∧ Cause.overflow.code = 5 ∧ SubCause.unknownKind.code = 1 ∧ SubCause.invalidMode.code = 2 ∧
  SubCause.writeModeNonZero.code = 3 ∧ SubCause.negativeOpcode.code = 4

/-- Every step keeps every value in the range of a cell, Memory within its length, and a legal `CELL_BITS` (00_scope.md section 3,
43_arithmetic.md section 3; D1). -/
def Obligations.ValuesStayInRange : Prop :=
  ∀ s t : State, s.valuesOk = true → step s = .next t → t.valuesOk = true

/-- Every step keeps `ip` at most `LEN`, the counter between a quarter of `ip` and `ip`, and at most one emission per completed
instruction (10_state.md section 3; 44_io.md section 2; D10). That the count of a halted machine is at most its `ip` rests on `halt` advancing
`ip`, the spec's own choice (D9, log entry 11). -/
def Obligations.ProgressStaysBounded : Prop :=
  ∀ s t : State, s.progressOk = true → step s = .next t → t.progressOk = true

/-- Every step from any state leaves a legal end: a halted machine has a `halt` before `ip`, and a faulted one a fault record that
its state bears out (10_state.md section 4, 45_halt.md, 60_exceptions.md section 1; D6, D9, D18). -/
def Obligations.EveryStepLeavesALegalEnd : Prop :=
  ∀ s t : State, step s = .next t → t.endOk = true

/-- The invariants hold at `State.reset`, which stands for the time before any `load`, when by the spec no machine state exists
(10_state.md section 6). What is claimed of it holds of the model's own choices: no cell of Memory (log entry 2), no inputs (log
entry 4) and the default parameters (log entry 5). -/
def Obligations.ResetMeetsTheInvariants : Prop :=
  State.reset.inv = true

/-- The invariants hold after every `load` that succeeds with legal parameters, whatever inputs are offered (D1, log entry 10). -/
def Obligations.LoadMeetsTheInvariants : Prop :=
  ∀ (c : Config) (inputs program : List Int) (s : State), c.valid = true →
    load c inputs program = .loaded s → s.inv = true ∧ s.mem ≠ []

/-- What is fetched from a well-formed Memory is a well-formed instruction (43_arithmetic.md section 3; D1). -/
def Obligations.FetchedInstructionsAreWellFormed : Prop :=
  ∀ (b : Option Nat) (m : Memory) (ip : Nat) (i : Instr), Memory.wf b m = true → fetch m ip = .completes i →
    i.wellFormed b = true

/-- 42_step_loop.md section 2: the machine cannot loop. With inputs from a queue, a run from any state ends, in `Halted` or `Faulted`,
within `LEN - ip + 1` steps, more fuel changes nothing, and at most `LEN - ip` instructions complete. -/
def Obligations.RunsEndWithinTheLengthOfMemory : Prop :=
  ∀ s : State, s.mem ≠ [] → s.config.inputPolicy = .queue →
    ∃ t, t.rs ≠ .running ∧ t.icount ≤ s.icount + (s.mem.length - s.ip) ∧
      ∀ n, s.mem.length - s.ip + 1 ≤ n → run n s = .next t

/-- Over any number of steps: the parameters and `LEN` never change, `ip` and the counter never decrease, the inputs are consumed from
the front and the outputs appended at the end, and together they are at most as many as the completed instructions
(95_test_vectors.md part 4). -/
def Obligations.RunsOnlyMoveForward : Prop :=
  ∀ (n : Nat) (s t : State), run n s = .next t →
    t.config = s.config ∧ t.mem.length = s.mem.length ∧ s.ip ≤ t.ip ∧
    ∃ xs ys, s.inq = xs ++ t.inq ∧ t.outlog = s.outlog ++ ys ∧ s.icount + xs.length + ys.length ≤ t.icount

/-- 44_io.md section 2: "The machine does not look ahead". A run that ends otherwise than for want of input goes the same way with
further inputs behind its own, and leaves them where they are (D11). Of an offer the supply takes up the values in range, the
model's choice, log entry 10. -/
def Obligations.UnusedInputsDoNotMatter : Prop :=
  ∀ (n : Nat) (s t : State) (extra : List Int), run n s = .next t →
    (t.rs = .halted ∨ (t.rs = .faulted ∧ t.fcause ≠ .inputExhausted)) →
    run n (s.supply extra) = .next (t.supply extra)
end

