-- ==== Sys2Proof/Laws/State.lean ====
section
/-!
SUPPORT. One lemma per field per update of State, true by rfl: no later proof unfolds a record update.
-/

namespace Sys2Proof.Machine

variable (s : State)

/-! Fields after `M[a] <- v`. -/

@[simp] theorem store_config (a v : Int) : (s.store a v).config = s.config := rfl
@[simp] theorem store_mem (a v : Int) : (s.store a v).mem = s.mem.set a.toNat v := rfl
@[simp] theorem store_ip (a v : Int) : (s.store a v).ip = s.ip := rfl
@[simp] theorem store_rs (a v : Int) : (s.store a v).rs = s.rs := rfl
@[simp] theorem store_fcause (a v : Int) : (s.store a v).fcause = s.fcause := rfl
@[simp] theorem store_fsub (a v : Int) : (s.store a v).fsub = s.fsub := rfl
@[simp] theorem store_fip (a v : Int) : (s.store a v).fip = s.fip := rfl
@[simp] theorem store_finfo (a v : Int) : (s.store a v).finfo = s.finfo := rfl
@[simp] theorem store_icount (a v : Int) : (s.store a v).icount = s.icount := rfl
@[simp] theorem store_inq (a v : Int) : (s.store a v).inq = s.inq := rfl
@[simp] theorem store_outlog (a v : Int) : (s.store a v).outlog = s.outlog := rfl

/-! Fields after consuming an input. -/

@[simp] theorem consume_config (rest : List Int) : (s.consume rest).config = s.config := rfl
@[simp] theorem consume_mem (rest : List Int) : (s.consume rest).mem = s.mem := rfl
@[simp] theorem consume_ip (rest : List Int) : (s.consume rest).ip = s.ip := rfl
@[simp] theorem consume_rs (rest : List Int) : (s.consume rest).rs = s.rs := rfl
@[simp] theorem consume_fcause (rest : List Int) : (s.consume rest).fcause = s.fcause := rfl
@[simp] theorem consume_fsub (rest : List Int) : (s.consume rest).fsub = s.fsub := rfl
@[simp] theorem consume_fip (rest : List Int) : (s.consume rest).fip = s.fip := rfl
@[simp] theorem consume_finfo (rest : List Int) : (s.consume rest).finfo = s.finfo := rfl
@[simp] theorem consume_icount (rest : List Int) : (s.consume rest).icount = s.icount := rfl
@[simp] theorem consume_inq (rest : List Int) : (s.consume rest).inq = rest := rfl
@[simp] theorem consume_outlog (rest : List Int) : (s.consume rest).outlog = s.outlog := rfl

/-! Fields after supplying inputs. -/

@[simp] theorem supply_config (vs : List Int) : (s.supply vs).config = s.config := rfl
@[simp] theorem supply_mem (vs : List Int) : (s.supply vs).mem = s.mem := rfl
@[simp] theorem supply_ip (vs : List Int) : (s.supply vs).ip = s.ip := rfl
@[simp] theorem supply_rs (vs : List Int) : (s.supply vs).rs = s.rs := rfl
@[simp] theorem supply_fcause (vs : List Int) : (s.supply vs).fcause = s.fcause := rfl
@[simp] theorem supply_fsub (vs : List Int) : (s.supply vs).fsub = s.fsub := rfl
@[simp] theorem supply_fip (vs : List Int) : (s.supply vs).fip = s.fip := rfl
@[simp] theorem supply_finfo (vs : List Int) : (s.supply vs).finfo = s.finfo := rfl
@[simp] theorem supply_icount (vs : List Int) : (s.supply vs).icount = s.icount := rfl
@[simp] theorem supply_inq (vs : List Int) : (s.supply vs).inq = s.inq ++ deliverable s.config vs := rfl
@[simp] theorem supply_outlog (vs : List Int) : (s.supply vs).outlog = s.outlog := rfl

/-! Fields after `Out(v)`. -/

@[simp] theorem emit_config (v : Int) : (s.emit v).config = s.config := rfl
@[simp] theorem emit_mem (v : Int) : (s.emit v).mem = s.mem := rfl
@[simp] theorem emit_ip (v : Int) : (s.emit v).ip = s.ip := rfl
@[simp] theorem emit_rs (v : Int) : (s.emit v).rs = s.rs := rfl
@[simp] theorem emit_fcause (v : Int) : (s.emit v).fcause = s.fcause := rfl
@[simp] theorem emit_fsub (v : Int) : (s.emit v).fsub = s.fsub := rfl
@[simp] theorem emit_fip (v : Int) : (s.emit v).fip = s.fip := rfl
@[simp] theorem emit_finfo (v : Int) : (s.emit v).finfo = s.finfo := rfl
@[simp] theorem emit_icount (v : Int) : (s.emit v).icount = s.icount := rfl
@[simp] theorem emit_inq (v : Int) : (s.emit v).inq = s.inq := rfl
@[simp] theorem emit_outlog (v : Int) : (s.emit v).outlog = s.outlog ++ [v] := rfl

/-! Fields after `rs <- Halted`. -/

@[simp] theorem stop_config : (s.stop).config = s.config := rfl
@[simp] theorem stop_mem : (s.stop).mem = s.mem := rfl
@[simp] theorem stop_ip : (s.stop).ip = s.ip := rfl
@[simp] theorem stop_rs : (s.stop).rs = .halted := rfl
@[simp] theorem stop_fcause : (s.stop).fcause = s.fcause := rfl
@[simp] theorem stop_fsub : (s.stop).fsub = s.fsub := rfl
@[simp] theorem stop_fip : (s.stop).fip = s.fip := rfl
@[simp] theorem stop_finfo : (s.stop).finfo = s.finfo := rfl
@[simp] theorem stop_icount : (s.stop).icount = s.icount := rfl
@[simp] theorem stop_inq : (s.stop).inq = s.inq := rfl
@[simp] theorem stop_outlog : (s.stop).outlog = s.outlog := rfl

/-! Fields after the advance and the count. -/

@[simp] theorem advance_config (w : Nat) : (s.advance w).config = s.config := rfl
@[simp] theorem advance_mem (w : Nat) : (s.advance w).mem = s.mem := rfl
@[simp] theorem advance_ip (w : Nat) : (s.advance w).ip = s.ip + w := rfl
@[simp] theorem advance_rs (w : Nat) : (s.advance w).rs = s.rs := rfl
@[simp] theorem advance_fcause (w : Nat) : (s.advance w).fcause = s.fcause := rfl
@[simp] theorem advance_fsub (w : Nat) : (s.advance w).fsub = s.fsub := rfl
@[simp] theorem advance_fip (w : Nat) : (s.advance w).fip = s.fip := rfl
@[simp] theorem advance_finfo (w : Nat) : (s.advance w).finfo = s.finfo := rfl
@[simp] theorem advance_icount (w : Nat) : (s.advance w).icount = s.icount + 1 := rfl
@[simp] theorem advance_inq (w : Nat) : (s.advance w).inq = s.inq := rfl
@[simp] theorem advance_outlog (w : Nat) : (s.advance w).outlog = s.outlog := rfl

/-! Fields after taking a fault. -/

@[simp] theorem takeFault_config (r : Raise) : (takeFault r s).config = s.config := rfl
@[simp] theorem takeFault_mem (r : Raise) : (takeFault r s).mem = s.mem := rfl
@[simp] theorem takeFault_ip (r : Raise) : (takeFault r s).ip = s.ip := rfl
@[simp] theorem takeFault_rs (r : Raise) : (takeFault r s).rs = .faulted := rfl
@[simp] theorem takeFault_fcause (r : Raise) : (takeFault r s).fcause = r.cause := rfl
@[simp] theorem takeFault_fsub (r : Raise) : (takeFault r s).fsub = r.sub s.fsub := rfl
@[simp] theorem takeFault_fip (r : Raise) : (takeFault r s).fip = s.ip := rfl
@[simp] theorem takeFault_finfo (r : Raise) : (takeFault r s).finfo = r.info := rfl
@[simp] theorem takeFault_icount (r : Raise) : (takeFault r s).icount = s.icount := rfl
@[simp] theorem takeFault_inq (r : Raise) : (takeFault r s).inq = s.inq := rfl
@[simp] theorem takeFault_outlog (r : Raise) : (takeFault r s).outlog = s.outlog := rfl

end Sys2Proof.Machine
end

