-- ==== Sys2Proof/Laws/Memory.lean ====
section
/-!
SUPPORT. What the operations over Memory and the Operand resolver can do, said once each, and that they keep Memory's form.
-/

namespace Sys2Proof.Machine

theorem andThen_eq_completes {α β : Type} {x : Attempt α} {f : α → Attempt β} {b : β} :
    x.andThen f = .completes b ↔ ∃ a, x = .completes a ∧ f a = .completes b := by
  cases x <;> simp [Attempt.andThen]

theorem andThen_eq_faults {α β : Type} {x : Attempt α} {f : α → Attempt β} {r : Raise} :
    x.andThen f = .faults r ↔ x = .faults r ∨ ∃ a, x = .completes a ∧ f a = .faults r := by
  cases x <;> simp [Attempt.andThen]

theorem andThen_eq_holds {α β : Type} {x : Attempt α} {f : α → Attempt β} :
    x.andThen f = .holds ↔ x = .holds ∨ ∃ a, x = .completes a ∧ f a = .holds := by
  cases x <;> simp [Attempt.andThen]

@[simp] theorem andThen_completes {α β : Type} (a : α) (f : α → Attempt β) : (Attempt.completes a).andThen f = f a := rfl

@[simp] theorem andThen_faults {α β : Type} (r : Raise) (f : α → Attempt β) :
    (Attempt.faults r).andThen f = .faults r := rfl

@[simp] theorem andThen_holds {α β : Type} (f : α → Attempt β) : (Attempt.holds).andThen f = .holds := rfl

/-- An address lies inside Memory exactly when the check completes, with that address. -/
theorem checkAddr_eq_completes {m : Memory} {a t : Int} :
    checkAddr m a = .completes t ↔ t = a ∧ 0 ≤ a ∧ a < m.length := by
  unfold checkAddr
  by_cases h : a < 0 ∨ (m.length : Int) ≤ a
  · rw [if_pos h]
    constructor
    · intro h'; cases h'
    · rintro ⟨_, h'⟩; omega
  · rw [if_neg h]
    constructor
    · rintro ⟨⟩; exact ⟨rfl, by omega⟩
    · rintro ⟨rfl, _⟩; rfl

theorem checkAddr_eq_faults {m : Memory} {a : Int} {r : Raise} :
    checkAddr m a = .faults r ↔ r = .addressOutOfBounds a ∧ (a < 0 ∨ (m.length : Int) ≤ a) := by
  unfold checkAddr
  by_cases h : a < 0 ∨ (m.length : Int) ≤ a
  · rw [if_pos h]; simp [h, eq_comm]
  · rw [if_neg h]; simp [h]

theorem checkAddr_ne_holds {m : Memory} {a : Int} : checkAddr m a ≠ .holds := by
  unfold checkAddr
  split <;> simp

theorem memRead_eq_completes {m : Memory} {a v : Int} :
    memRead m a = .completes v ↔ 0 ≤ a ∧ m[a.toNat]? = some v := by
  unfold memRead
  by_cases h : a < 0
  · rw [if_pos h]; simp; omega
  · rw [if_neg h]
    cases hm : m[a.toNat]? <;> simp <;> omega

theorem memRead_eq_faults {m : Memory} {a : Int} {r : Raise} :
    memRead m a = .faults r ↔ r = .addressOutOfBounds a ∧ (a < 0 ∨ (m.length : Int) ≤ a) := by
  unfold memRead
  by_cases h : a < 0
  · rw [if_pos h]; simp [h, eq_comm]
  · rw [if_neg h]
    cases hm : m[a.toNat]? with
    | none =>
      have hl := List.getElem?_eq_none_iff.mp hm
      have : (m.length : Int) ≤ a := by omega
      simp [this, eq_comm]
    | some v =>
      have hl := (List.getElem?_eq_some_iff.mp hm).1
      have : ¬ (m.length : Int) ≤ a := by omega
      simp [this, h]

theorem memRead_ne_holds {m : Memory} {a : Int} : memRead m a ≠ .holds := by
  unfold memRead
  split
  · simp
  · split <;> simp

/-- A position operand is a read of Memory, an immediate operand the raw value. -/
theorem readOperand_eq_completes {m : Memory} {p v : Int} {md : Mode} :
    readOperand m p md = .completes v ↔ (md = .immediate ∧ v = p) ∨ (md = .position ∧ 0 ≤ p ∧ m[p.toNat]? = some v) := by
  cases md <;> simp [readOperand, memRead_eq_completes, eq_comm]

theorem readOperand_eq_faults {m : Memory} {p : Int} {md : Mode} {r : Raise} :
    readOperand m p md = .faults r ↔
      md = .position ∧ r = .addressOutOfBounds p ∧ (p < 0 ∨ (m.length : Int) ≤ p) := by
  cases md <;> simp [readOperand, memRead_eq_faults]

theorem readOperand_ne_holds {m : Memory} {p : Int} {md : Mode} : readOperand m p md ≠ .holds := by
  cases md <;> simp [readOperand, memRead_ne_holds]

theorem memWrite_eq_completes {s t : State} {a v : Int} :
    memWrite s a v = .completes t ↔ t = s.store a v ∧ 0 ≤ a ∧ a < s.mem.length := by
  simp only [memWrite, andThen_eq_completes, checkAddr_eq_completes, Attempt.completes.injEq]
  constructor
  · rintro ⟨_, ⟨rfl, h⟩, rfl⟩; exact ⟨rfl, h⟩
  · rintro ⟨rfl, h⟩; exact ⟨a, ⟨rfl, h⟩, rfl⟩

theorem memWrite_eq_faults {s : State} {a v : Int} {r : Raise} :
    memWrite s a v = .faults r ↔ r = .addressOutOfBounds a ∧ (a < 0 ∨ (s.mem.length : Int) ≤ a) := by
  simp [memWrite, andThen_eq_faults, checkAddr_eq_faults]

theorem memWrite_ne_holds {s : State} {a v : Int} : memWrite s a v ≠ .holds := by
  simp [memWrite, andThen_eq_holds, checkAddr_ne_holds]

/-! The input boundary. -/

theorem deliverable_inRange (c : Config) (vs : List Int) : (deliverable c vs).all (cellInRange c.cellBits) = true := by
  simp [deliverable]

/-- A supply in range is taken up whole; so is every supply with no `CELL_BITS`. -/
theorem deliverable_eq_self {c : Config} {vs : List Int} :
    deliverable c vs = vs ↔ vs.all (cellInRange c.cellBits) = true := by
  simp [deliverable, List.filter_eq_self]

theorem nextInput_eq_some {s : State} {x : Int} {rest : List Int} :
    s.nextInput = some (x, rest) ↔ s.inq = x :: rest ∧ cellInRange s.config.cellBits x = true := by
  unfold State.nextInput
  split
  next h => simp [h]
  next y ys h =>
    by_cases hy : cellInRange s.config.cellBits y = true
    · rw [if_pos hy, h, Option.some.injEq, Prod.mk.injEq, List.cons.injEq]
      exact ⟨fun h' => ⟨h', h'.1 ▸ hy⟩, And.left⟩
    · rw [if_neg hy, h, List.cons.injEq]
      exact ⟨nofun, fun h' => absurd (h'.1.1 ▸ h'.2) hy⟩

theorem nextInput_eq_none {s : State} :
    s.nextInput = none ↔ ∀ x rest, s.inq = x :: rest → cellInRange s.config.cellBits x = false := by
  unfold State.nextInput
  split <;> rename_i h <;> simp [h]

theorem nextInput_empty {s : State} (h : s.inq = []) : s.nextInput = none := by simp [State.nextInput, h]

/-- The three answers of the input boundary. -/
theorem takeInput_eq_completes {s : State} {x : Int × State} :
    takeInput s = .completes x ↔
      ∃ rest, s.inq = x.1 :: rest ∧ cellInRange s.config.cellBits x.1 = true ∧ x.2 = s.consume rest := by
  obtain ⟨v, t⟩ := x
  unfold takeInput
  simp only [← and_assoc, ← nextInput_eq_some]
  split
  next y ys h =>
    simp only [Attempt.completes.injEq, Prod.mk.injEq, h, Option.some.injEq]
    constructor
    · rintro ⟨rfl, rfl⟩; exact ⟨ys, ⟨rfl, rfl⟩, rfl⟩
    · rintro ⟨_, ⟨rfl, rfl⟩, rfl⟩; exact ⟨rfl, rfl⟩
  next h => split <;> simp [h]

theorem takeInput_eq_faults {s : State} {r : Raise} :
    takeInput s = .faults r ↔ r = .inputExhausted ∧ s.nextInput = none ∧ s.config.inputPolicy = .queue := by
  unfold takeInput
  split
  next h => simp [h]
  next h => split <;> rename_i hp <;> simp [h, hp, eq_comm]

theorem takeInput_eq_holds {s : State} :
    takeInput s = .holds ↔ s.nextInput = none ∧ s.config.inputPolicy = .blocking := by
  unfold takeInput
  split
  next h => simp [h]
  next h => split <;> rename_i hp <;> simp [h, hp]

theorem checkResult_eq_completes {c : Config} {v w : Int} :
    checkResult c v = .completes w ↔ w = v ∧ cellInRange c.cellBits v = true := by
  unfold checkResult overflows
  cases cellInRange c.cellBits v <;> simp [eq_comm]

theorem checkResult_eq_faults {c : Config} {v : Int} {r : Raise} :
    checkResult c v = .faults r ↔ r = .overflow ∧ cellInRange c.cellBits v = false := by
  unfold checkResult overflows
  cases cellInRange c.cellBits v <;> simp [eq_comm]

theorem checkResult_ne_holds {c : Config} {v : Int} : checkResult c v ≠ .holds := by
  unfold checkResult
  split <;> simp

/-! Memory's form. -/

theorem Memory.wf_iff {b : Option Nat} {m : Memory} : Memory.wf b m = true ↔ ∀ v ∈ m, cellInRange b v = true := by
  simp [Memory.wf]

theorem reset_mem_wf (b : Option Nat) : Memory.wf b State.reset.mem = true := rfl

theorem wf_set {b : Option Nat} {m : Memory} {v : Int} (n : Nat) (hm : Memory.wf b m = true)
    (hv : cellInRange b v = true) : Memory.wf b (m.set n v) = true := by
  rw [Memory.wf_iff] at *
  intro w hw
  rcases List.mem_or_eq_of_mem_set hw with h | rfl
  · exact hm w h
  · exact hv

theorem wf_memRead {b : Option Nat} {m : Memory} {a v : Int} (hm : Memory.wf b m = true)
    (h : memRead m a = .completes v) : cellInRange b v = true :=
  Memory.wf_iff.mp hm v (List.mem_of_getElem? (memRead_eq_completes.mp h).2)

theorem wf_memWrite {b : Option Nat} {s t : State} {a v : Int} (hm : Memory.wf b s.mem = true)
    (hv : cellInRange b v = true) (h : memWrite s a v = .completes t) : Memory.wf b t.mem = true := by
  obtain ⟨rfl, _⟩ := memWrite_eq_completes.mp h
  exact wf_set _ hm hv

end Sys2Proof.Machine
end

