-- ==== Sys2Proof/Laws/Decode.lean ====
section
/-!
SUPPORT. What the Decoder can answer, and the shapes of what it decodes.
-/

namespace Sys2Proof

theorem Kind.ofCode_eq_some {c : Nat} {k : Kind} : Kind.ofCode c = some k ↔ c = k.code := by
  constructor
  · unfold Kind.ofCode
    repeat' split
    all_goals rintro ⟨⟩
    all_goals simpa [Kind.code]
  · rintro rfl
    cases k <;> rfl

theorem Kind.ofCode_eq_none {c : Nat} :
    Kind.ofCode c = none ↔ c ≠ 1 ∧ c ≠ 2 ∧ c ≠ 3 ∧ c ≠ 4 ∧ c ≠ 99 := by
  unfold Kind.ofCode
  repeat' split
  all_goals simp_all

theorem Kind.code_lt (k : Kind) : k.code < 100 := by cases k <;> decide

/-- A mode digit is accepted exactly when it is the digit of the mode answered, and of a destination only when it is 0. -/
theorem decodeMode_eq_ok {r : Role} {d : Nat} {m : Mode} :
    decodeMode r d = .ok m ↔ d = m.digit ∧ (r = .destination → m = .position) := by
  unfold decodeMode
  cases r <;> cases m <;> rcases d with _ | _ | d <;> simp [Mode.digit]

theorem decodeMode_eq_error {r : Role} {d : Nat} {e : DecodeError} :
    decodeMode r d = .error e ↔
      (2 ≤ d ∧ e = .invalidMode) ∨ (d = 1 ∧ r = .destination ∧ e = .writeModeNonZero) := by
  unfold decodeMode
  cases r <;> cases e <;> rcases d with _ | _ | d <;> simp

/-- The modes are refused at the first parameter whose digit is, and for its reason (40_decoder.md R74). -/
theorem decodeModes_eq_error {v i : Nat} {rs : List Role} {e : DecodeError} :
    decodeModes v i rs = .error e ↔ ∃ j r, rs[j]? = some r ∧
      (∀ k r', k < j → rs[k]? = some r' → dig v (i+k+2) = 0 ∨ (dig v (i+k+2) = 1 ∧ r' = .source)) ∧
      ((2 ≤ dig v (i+j+2) ∧ e = .invalidMode) ∨ (dig v (i+j+2) = 1 ∧ r = .destination ∧ e = .writeModeNonZero)) := by
  induction rs generalizing i with
  | nil => simp [decodeModes]
  | cons r rs ih =>
    unfold decodeModes
    cases hm : decodeMode r (dig v (i+2)) with
    | error e' =>
      simp only [Except.error.injEq]
      have he := decodeMode_eq_error.mp hm
      constructor
      · rintro rfl
        exact ⟨0, r, rfl, by omega, by simpa using he⟩
      · rintro ⟨j, r', hj, hk, h⟩
        cases j with
        | zero =>
          simp at hj; subst hj
          simp at h
          have : decodeMode r (dig v (i+2)) = .error e := decodeMode_eq_error.mpr h
          rw [hm] at this; cases this; rfl
        | succ j =>
          have := hk 0 r (by omega) rfl
          simp at this
          rcases he with he | he
          · omega
          · rcases this with h' | ⟨_, h'⟩
            · omega
            · rw [he.2.1] at h'; cases h'
    | ok m =>
      have ho := decodeMode_eq_ok.mp hm
      have key : decodeModes v (i+1) rs = .error e ↔ ((match decodeModes v (i+1) rs with | .error e => (Except.error e : Except DecodeError (List Mode)) | .ok ms => .ok (m::ms)) = .error e) := by
        cases decodeModes v (i+1) rs <;> simp
      refine key.symm.trans (ih.trans ?_)
      constructor
      · rintro ⟨j, r', hj, hk, h⟩
        refine ⟨j+1, r', hj, ?_, ?_⟩
        · intro k r'' hkj hr
          cases k with
          | zero =>
            simp at hr; subst hr
            have hh := ho.2
            rw [show i+0+2 = i+2 by omega, ho.1]
            cases m
            · left; rfl
            · right; refine ⟨rfl, ?_⟩
              cases r
              · rfl
              · exact absurd (hh rfl) (by simp)
          | succ k =>
            have := hk k r'' (by omega) hr
            rwa [show i+(k+1)+2 = i+1+k+2 by omega]
        · rwa [show i+(j+1)+2 = i+1+j+2 by omega]
      · rintro ⟨j, r', hj, hk, h⟩
        cases j with
        | zero =>
          exfalso
          simp at hj; subst hj
          rw [show i+0+2 = i+2 by omega] at h
          have := decodeMode_eq_error.mpr h
          rw [hm] at this; cases this
        | succ j =>
          refine ⟨j, r', hj, ?_, ?_⟩
          · intro k r'' hkj hr
            have := hk (k+1) r'' (by omega) hr
            rwa [show i+(k+1)+2 = i+1+k+2 by omega] at this
          · rwa [show i+(j+1)+2 = i+1+j+2 by omega] at h

/-- A decimal digit of a non-negative integer, as integer division gives it. -/
theorem dig_toNat {v : Int} (h : 0 ≤ v) (k : Nat) : (dig v.toNat k : Int) = v / 10 ^ k % 10 := by
  obtain ⟨n, rfl⟩ := Int.eq_ofNat_of_zero_le h
  simp [dig]

theorem decodeModes_length {v i : Nat} {rs : List Role} {ms : List Mode} (h : decodeModes v i rs = .ok ms) :
    ms.length = rs.length := by
  induction rs generalizing i ms with
  | nil => cases h; rfl
  | cons r rs ih =>
    unfold decodeModes at h
    split at h
    · cases h
    · split at h
      · cases h
      · cases h; simp [ih (by assumption)]

/-- The mode of parameter `j` is the digit at decimal position `i + j + 2`, and a destination's is position. -/
theorem decodeModes_get {v i : Nat} {rs : List Role} {ms : List Mode} (h : decodeModes v i rs = .ok ms) {j : Nat}
    {m : Mode} (hm : ms[j]? = some m) :
    dig v (i + j + 2) = m.digit ∧ (rs[j]? = some .destination → m = .position) := by
  induction rs generalizing i ms j with
  | nil => cases h; simp at hm
  | cons r rs ih =>
    unfold decodeModes at h
    split at h
    · cases h
    next m0 h0 =>
      split at h
      · cases h
      next ms' h' =>
        cases h
        cases j with
        | zero =>
          simp only [List.getElem?_cons_zero, Option.some.injEq] at hm ⊢
          subst hm
          exact ⟨(decodeMode_eq_ok.mp h0).1, (decodeMode_eq_ok.mp h0).2⟩
        | succ j =>
          simp only [List.getElem?_cons_succ] at hm ⊢
          have := ih h' hm
          rwa [show i + 1 + j = i + (j + 1) by omega] at this

/-- What the Decoder accepts: a non-negative value whose two low digits are the kind's number and whose mode digits are
those of the modes answered. -/
theorem decode_eq_decoded {v : Int} {d : Decoded} :
    decode v = .decoded d ↔
      0 ≤ v ∧ v.toNat % 100 = d.kind.code ∧ decodeModes v.toNat 0 d.kind.roles = .ok d.modes := by
  unfold decode
  by_cases h : v < 0
  · rw [if_pos h]; simp; omega
  · rw [if_neg h]
    cases hk : Kind.ofCode (v.toNat % 100) with
    | none =>
      have hn := Kind.ofCode_eq_none.mp hk
      simp only [reduceCtorEq, false_iff]
      rintro ⟨_, hc, _⟩
      rw [hc] at hk
      exact absurd hk (by rw [Kind.ofCode_eq_some.mpr rfl]; simp)
    | some k =>
      have hc := Kind.ofCode_eq_some.mp hk
      dsimp only
      cases hm : decodeModes v.toNat 0 k.roles with
      | error e =>
        simp only [reduceCtorEq, false_iff]
        rintro ⟨_, hc', hm'⟩
        have : k = d.kind := by rw [hc', Kind.ofCode_eq_some.mpr rfl] at hk; simpa using hk.symm
        rw [← this, hm] at hm'
        cases hm'
      | ok ms =>
        obtain ⟨dk, dm⟩ := d
        simp only [DecodeResult.decoded.injEq, Decoded.mk.injEq]
        constructor
        · rintro ⟨rfl, rfl⟩; exact ⟨by omega, hc, hm⟩
        · rintro ⟨_, hc', hm'⟩
          have : k = dk := by rw [hc', Kind.ofCode_eq_some.mpr rfl] at hk; simpa using hk.symm
          subst this
          rw [hm] at hm'
          cases hm'
          exact ⟨rfl, rfl⟩

/-- What the Decoder refuses, sub-cause by sub-cause. -/
theorem decode_eq_rejected {v : Int} {e : DecodeError} :
    decode v = .rejected e ↔
      (v < 0 ∧ e = .negativeOpcode) ∨
      (0 ≤ v ∧ Kind.ofCode (v.toNat % 100) = none ∧ e = .unknownKind) ∨
      (0 ≤ v ∧ ∃ k : Kind, v.toNat % 100 = k.code ∧ decodeModes v.toNat 0 k.roles = .error e) := by
  unfold decode
  by_cases h : v < 0
  · have h' : ¬ 0 ≤ v := by omega
    rw [if_pos h]; simp [h, h', eq_comm]
  · have h' : 0 ≤ v := by omega
    rw [if_neg h]
    cases hk : Kind.ofCode (v.toNat % 100) with
    | none =>
      simp only [DecodeResult.rejected.injEq, h, h', true_and, false_and, false_or]
      constructor
      · rintro rfl; exact .inl rfl
      · rintro (rfl | ⟨k, hc, _⟩)
        · rfl
        · rw [Kind.ofCode_eq_some.mpr hc] at hk; cases hk
    | some k =>
      have hc := Kind.ofCode_eq_some.mp hk
      simp only [h, h', true_and, false_and, false_or, reduceCtorEq]
      constructor
      · intro hr
        refine ⟨k, hc, ?_⟩
        split at hr <;> simp_all
      · rintro ⟨k', hc', hm⟩
        rw [Kind.ofCode_eq_some.mpr hc'] at hk
        cases hk
        simp [hm]

theorem decoded_modes_length {v : Int} {d : Decoded} (h : decode v = .decoded d) : d.modes.length = d.arity :=
  decodeModes_length (decode_eq_decoded.mp h).2.2

@[simp] theorem Decoded.instr_kind (d : Decoded) (raw : List Int) : (d.instr raw).kind = d.kind := by
  unfold Decoded.instr Instr.kind
  cases d.kind <;> rfl

@[simp] theorem Decoded.instr_width (d : Decoded) (raw : List Int) : (d.instr raw).width = d.width := by
  simp [Instr.width, Decoded.width]

/-- With one raw value per parameter, those are the instruction's parameters. -/
theorem Decoded.instr_params {d : Decoded} {raw : List Int} (h : raw.length = d.arity) :
    (d.instr raw).params = raw := by
  obtain ⟨k, ms⟩ := d
  cases k <;> simp only [Decoded.arity, Kind.arity, Kind.roles, List.length_cons, List.length_nil] at h
  case add | multiply =>
    match raw, h with
    | [_, _, _], _ => rfl
  case input | output =>
    obtain ⟨a, rfl⟩ := List.length_eq_one_iff.mp h
    rfl
  case halt => simp_all [Decoded.instr, Instr.params]

/-- The modes of a decoded instruction are the decoded modes. -/
theorem Decoded.instr_modes {v : Int} {d : Decoded} (h : decode v = .decoded d) (raw : List Int) :
    (d.instr raw).modes = d.modes := by
  have hl := decoded_modes_length h
  have hm := (decode_eq_decoded.mp h).2.2
  obtain ⟨k, ms⟩ := d
  cases k <;> simp only [Decoded.arity, Kind.arity, Kind.roles, List.length_cons, List.length_nil] at hl hm
  case add | multiply =>
    match ms, hl, hm with
    | [_, _, _], _, hm =>
      have := (decodeModes_get hm (j := 2) rfl).2 rfl
      subst this
      rfl
  case input =>
    obtain ⟨a, rfl⟩ := List.length_eq_one_iff.mp hl
    have := (decodeModes_get hm (j := 0) rfl).2 rfl
    subst this
    rfl
  case output =>
    obtain ⟨a, rfl⟩ := List.length_eq_one_iff.mp hl
    rfl
  case halt => simp_all [Decoded.instr, Instr.modes]

end Sys2Proof
end

