-- ==== Sys2Proof/Laws/Exec.lean ====
section
/-!
SUPPORT. What each instruction, the fetch and the step can do, said once each.
-/

namespace Sys2Proof.Machine

/-! The outcome of a body. -/

@[simp] theorem settle_completes (s t : State) (w : Nat) : settle s w (.completes t) = .next (t.advance w) := rfl

@[simp] theorem settle_faults (s : State) (w : Nat) (r : Raise) : settle s w (.faults r) = .next (takeFault r s) := rfl

@[simp] theorem settle_holds (s : State) (w : Nat) : settle s w .holds = .next s := rfl

theorem settle_eq_next {s u : State} {w : Nat} {x : Attempt State} :
    settle s w x = .next u ↔
      (∃ t, x = .completes t ∧ u = t.advance w) ∨ (∃ r, x = .faults r ∧ u = takeFault r s) ∨ (x = .holds ∧ u = s) := by
  cases x <;> simp [settle, eq_comm]

/-! The bodies. -/

theorem arithBody_eq_completes {op : AluOp} {m0 m1 : Mode} {p0 p1 p2 : Int} {s t : State} :
    arithBody op m0 m1 p0 p1 p2 s = .completes t ↔
      ∃ a b, readOperand s.mem p0 m0 = .completes a ∧ readOperand s.mem p1 m1 = .completes b ∧
        (0 ≤ p2 ∧ p2 < s.mem.length) ∧ cellInRange s.config.cellBits (alu op a b) = true ∧ t = s.store p2 (alu op a b) := by
  simp only [arithBody, andThen_eq_completes, writeAddress, checkAddr_eq_completes, checkResult_eq_completes,
    memWrite_eq_completes]
  constructor
  · rintro ⟨a, ha, b, hb, _, ⟨rfl, h2⟩, _, ⟨rfl, hv⟩, rfl, _⟩
    exact ⟨a, b, ha, hb, h2, hv, rfl⟩
  · rintro ⟨a, b, ha, hb, h2, hv, rfl⟩
    exact ⟨a, ha, b, hb, p2, ⟨rfl, h2⟩, _, ⟨rfl, hv⟩, rfl, h2⟩

/-- The faults of an arithmetic instruction, in the order they are tested (60_exceptions.md R139). -/
theorem arithBody_eq_faults {op : AluOp} {m0 m1 : Mode} {p0 p1 p2 : Int} {s : State} {r : Raise} :
    arithBody op m0 m1 p0 p1 p2 s = .faults r ↔
      readOperand s.mem p0 m0 = .faults r ∨
      ∃ a, readOperand s.mem p0 m0 = .completes a ∧
        (readOperand s.mem p1 m1 = .faults r ∨
         ∃ b, readOperand s.mem p1 m1 = .completes b ∧
           ((r = .addressOutOfBounds p2 ∧ (p2 < 0 ∨ (s.mem.length : Int) ≤ p2)) ∨
            ((0 ≤ p2 ∧ p2 < s.mem.length) ∧ r = .overflow ∧ cellInRange s.config.cellBits (alu op a b) = false))) := by
  simp only [arithBody, andThen_eq_faults, writeAddress, checkAddr_eq_faults, checkAddr_eq_completes,
    checkResult_eq_faults, checkResult_eq_completes, memWrite_eq_faults]
  refine or_congr Iff.rfl (exists_congr fun a => and_congr Iff.rfl (or_congr Iff.rfl (exists_congr fun b =>
    and_congr Iff.rfl (or_congr Iff.rfl ?_))))
  constructor
  · rintro ⟨_, ⟨rfl, h2⟩, h | ⟨_, _, _, h⟩⟩
    · exact ⟨h2, h⟩
    · omega
  · rintro ⟨h2, h⟩
    exact ⟨p2, ⟨rfl, h2⟩, .inl h⟩

theorem arithBody_ne_holds {op : AluOp} {m0 m1 : Mode} {p0 p1 p2 : Int} {s : State} :
    arithBody op m0 m1 p0 p1 p2 s ≠ .holds := by
  simp [arithBody, andThen_eq_holds, readOperand_ne_holds, writeAddress, checkAddr_ne_holds, checkResult_ne_holds,
    memWrite_ne_holds]

/-- The body of each instruction: what it does before the advance and the count. -/
def body (i : Instr) (s : State) : Attempt State :=
  match i with
  | .add m0 m1 p0 p1 p2 => arithBody .sum m0 m1 p0 p1 p2 s
  | .multiply m0 m1 p0 p1 p2 => arithBody .product m0 m1 p0 p1 p2 s
  | .input p0 => (writeAddress s.mem p0).andThen fun t => (takeInput s).andThen fun x => memWrite x.2 t x.1
  | .output m0 p0 => (readOperand s.mem p0 m0).andThen fun a => .completes (s.emit a)
  | .halt => .completes s.stop

theorem exec_eq_settle (i : Instr) (s : State) : exec i s = settle s i.width (body i s) := by
  cases i <;> rfl

theorem inputBody_eq_completes {p0 : Int} {s t : State} :
    body (.input p0) s = .completes t ↔
      (0 ≤ p0 ∧ p0 < s.mem.length) ∧ ∃ x rest, s.inq = x :: rest ∧
        cellInRange s.config.cellBits x = true ∧ t = (s.consume rest).store p0 x := by
  simp only [body, andThen_eq_completes, writeAddress, checkAddr_eq_completes, takeInput_eq_completes,
    memWrite_eq_completes]
  constructor
  · rintro ⟨_, ⟨rfl, h⟩, ⟨x, _⟩, ⟨rest, hq, hx, rfl⟩, rfl, _⟩
    exact ⟨h, x, rest, hq, hx, rfl⟩
  · rintro ⟨h, x, rest, hq, hx, rfl⟩
    exact ⟨p0, ⟨rfl, h⟩, (x, s.consume rest), ⟨rest, hq, hx, rfl⟩, rfl, h⟩

theorem inputBody_eq_faults {p0 : Int} {s : State} {r : Raise} :
    body (.input p0) s = .faults r ↔
      (r = .addressOutOfBounds p0 ∧ (p0 < 0 ∨ (s.mem.length : Int) ≤ p0)) ∨
      ((0 ≤ p0 ∧ p0 < s.mem.length) ∧ r = .inputExhausted ∧ s.nextInput = none ∧ s.config.inputPolicy = .queue) := by
  simp only [body, andThen_eq_faults, writeAddress, checkAddr_eq_faults, checkAddr_eq_completes, takeInput_eq_faults,
    takeInput_eq_completes, memWrite_eq_faults]
  refine or_congr Iff.rfl ?_
  constructor
  · rintro ⟨_, ⟨rfl, h⟩, hr | ⟨⟨x, _⟩, ⟨rest, _, _, rfl⟩, _, h'⟩⟩
    · exact ⟨h, hr⟩
    · simp only [consume_mem] at h'; omega
  · rintro ⟨h, hr⟩
    exact ⟨p0, ⟨rfl, h⟩, .inl hr⟩

theorem inputBody_eq_holds {p0 : Int} {s : State} :
    body (.input p0) s = .holds ↔
      (0 ≤ p0 ∧ p0 < s.mem.length) ∧ s.nextInput = none ∧ s.config.inputPolicy = .blocking := by
  simp only [body, andThen_eq_holds, writeAddress, checkAddr_ne_holds, checkAddr_eq_completes, takeInput_eq_holds,
    memWrite_ne_holds, and_false, exists_false, or_false, false_or]
  constructor
  · rintro ⟨_, ⟨_, h⟩, hr⟩
    exact ⟨h, hr⟩
  · rintro ⟨h, hr⟩
    exact ⟨p0, ⟨rfl, h⟩, hr⟩

theorem outputBody_eq_completes {m0 : Mode} {p0 : Int} {s t : State} :
    body (.output m0 p0) s = .completes t ↔ ∃ a, readOperand s.mem p0 m0 = .completes a ∧ t = s.emit a := by
  simp only [body, andThen_eq_completes, Attempt.completes.injEq, eq_comm (a := t)]

theorem outputBody_eq_faults {m0 : Mode} {p0 : Int} {s : State} {r : Raise} :
    body (.output m0 p0) s = .faults r ↔ readOperand s.mem p0 m0 = .faults r := by
  simp [body, andThen_eq_faults]

/-- Only `input` ever holds, for want of a value under the blocking policy (44_io.md R120). -/
theorem body_eq_holds {i : Instr} {s : State} (h : body i s = .holds) :
    ∃ p0, i = .input p0 ∧ s.nextInput = none ∧ s.config.inputPolicy = .blocking := by
  cases i with
  | add | multiply => exact absurd h arithBody_ne_holds
  | input p0 => exact ⟨p0, rfl, (inputBody_eq_holds.mp h).2⟩
  | output => simp [body, andThen_eq_holds, readOperand_ne_holds] at h
  | halt => cases h

/-- Every instruction answers a next state, of one of three kinds (00_scope.md R7). -/
theorem exec_eq_next {i : Instr} {s u : State} :
    exec i s = .next u ↔
      (∃ t, body i s = .completes t ∧ u = t.advance i.width) ∨ (∃ r, body i s = .faults r ∧ u = takeFault r s) ∨
        (body i s = .holds ∧ u = s) := by
  rw [exec_eq_settle, settle_eq_next]

/-! What a completed or faulted body leaves. -/

theorem halt_ne_faults {s : State} {r : Raise} : body .halt s ≠ .faults r := by simp [body]

/-- Only `halt` writes `rs` (45_halt.md R128). -/
theorem body_completes_rs {i : Instr} {s t : State} (h : body i s = .completes t) :
    t.rs = if i = .halt then .halted else s.rs := by
  cases i with
  | add | multiply => obtain ⟨a, b, _, _, _, _, rfl⟩ := arithBody_eq_completes.mp h; simp
  | input => obtain ⟨_, x, r, _, _, rfl⟩ := inputBody_eq_completes.mp h; simp
  | output => obtain ⟨x, _, rfl⟩ := outputBody_eq_completes.mp h; simp
  | halt => cases h; simp

/-- A body leaves `ip`, the counter, the parameters, `LEN` and the fault record to the loop. -/
theorem body_completes_frame {i : Instr} {s t : State} (h : body i s = .completes t) :
    (t.ip = s.ip ∧ t.icount = s.icount ∧ t.config = s.config ∧ t.mem.length = s.mem.length) ∧
      (t.fcause = s.fcause ∧ t.fsub = s.fsub ∧ t.fip = s.fip ∧ t.finfo = s.finfo) := by
  cases i with
  | add | multiply => obtain ⟨a, b, _, _, _, _, rfl⟩ := arithBody_eq_completes.mp h; simp
  | input => obtain ⟨_, x, r, _, _, rfl⟩ := inputBody_eq_completes.mp h; simp
  | output => obtain ⟨x, _, rfl⟩ := outputBody_eq_completes.mp h; simp
  | halt => cases h; simp

/-- A body takes at most one value from the front of the inputs or adds one at the end of the outputs, not both. -/
theorem body_completes_io {i : Instr} {s u : State} (h : body i s = .completes u) :
    ∃ xs ys, s.inq = xs ++ u.inq ∧ u.outlog = s.outlog ++ ys ∧ xs.length + ys.length ≤ 1 := by
  cases i with
  | add | multiply => obtain ⟨a, b, _, _, _, _, rfl⟩ := arithBody_eq_completes.mp h; exact ⟨[],[],by simp⟩
  | input => obtain ⟨_, x, r, hq, _, rfl⟩ := inputBody_eq_completes.mp h; exact ⟨[x],[],by simp [hq]⟩
  | output => obtain ⟨x, _, rfl⟩ := outputBody_eq_completes.mp h; exact ⟨[],[x],by simp⟩
  | halt => cases h; exact ⟨[],[],by simp⟩

/-- The faults an instruction can raise after it was fetched, and when. -/
theorem body_faults_kind {i : Instr} {s : State} {r : Raise} (h : body i s = .faults r) :
    (∃ a, r = .addressOutOfBounds a ∧ (a < 0 ∨ (s.mem.length : Int) ≤ a)) ∨
      (r = .inputExhausted ∧ s.config.inputPolicy = .queue ∧ s.nextInput = none) ∨ (r = .overflow ∧ s.config.cellBits ≠ none) := by
  cases i with
  | add | multiply =>
    rcases arithBody_eq_faults.mp h with h | ⟨_, _, h | ⟨_, _, h | ⟨_, rfl, hv⟩⟩⟩
    · obtain ⟨_, rfl, h'⟩ := readOperand_eq_faults.mp h; exact .inl ⟨_,rfl,h'⟩
    · obtain ⟨_, rfl, h'⟩ := readOperand_eq_faults.mp h; exact .inl ⟨_,rfl,h'⟩
    · exact .inl ⟨_, h⟩
    · refine .inr (.inr ⟨rfl, ?_⟩); intro hn; simp [hn, cellInRange] at hv
  | input p =>
    rcases inputBody_eq_faults.mp h with h | ⟨_, rfl, h, h'⟩
    · exact .inl ⟨_, h⟩
    · exact .inr (.inl ⟨rfl, h', h⟩)
  | output => obtain ⟨_, rfl, h'⟩ := readOperand_eq_faults.mp (outputBody_eq_faults.mp h); exact .inl ⟨_,rfl,h'⟩
  | halt => exact absurd h halt_ne_faults

/-! The fetch. -/

theorem memRead_nat {m : Memory} {n : Nat} {v : Int} : memRead m (n : Int) = .completes v ↔ m[n]? = some v := by
  rw [memRead_eq_completes]
  simp

theorem memRead_nat_faults {m : Memory} {n : Nat} {r : Raise} :
    memRead m (n : Int) = .faults r ↔ r = .addressOutOfBounds (n : Int) ∧ m.length ≤ n := by
  rw [memRead_eq_faults]
  constructor <;> rintro ⟨h, h'⟩ <;> exact ⟨h, by omega⟩

/-- The parameter fetch completes exactly when all its cells lie inside Memory, with those cells. -/
theorem fetchParams_eq_completes {m : Memory} {a n : Nat} {ps : List Int} :
    fetchParams m a n = .completes ps ↔ (n = 0 ∨ a + n ≤ m.length) ∧ ps = (m.drop a).take n := by
  induction n generalizing a ps with
  | zero => simp [fetchParams, eq_comm]
  | succ n ih =>
    simp only [fetchParams, andThen_eq_completes, memRead_nat, ih, Attempt.completes.injEq]
    constructor
    · rintro ⟨v, hv, qs, ⟨hn, rfl⟩, rfl⟩
      obtain ⟨hlt, hv⟩ := List.getElem?_eq_some_iff.mp hv
      refine ⟨by omega, ?_⟩
      rw [List.drop_eq_getElem_cons hlt, hv, List.take_succ_cons]
    · rintro ⟨hn, rfl⟩
      have hlt : a < m.length := by omega
      refine ⟨m[a], List.getElem?_eq_getElem hlt, _, ⟨by omega, rfl⟩, ?_⟩
      rw [List.drop_eq_getElem_cons hlt, List.take_succ_cons]

/-- The parameter fetch reports the lowest address of its cells that lies outside Memory. -/
theorem fetchParams_eq_faults {m : Memory} {a n : Nat} {r : Raise} :
    fetchParams m a n = .faults r ↔
      ∃ j, j < n ∧ m.length ≤ a + j ∧ (∀ k < j, a + k < m.length) ∧ r = .addressOutOfBounds ((a + j : Nat) : Int) := by
  induction n generalizing a with
  | zero => simp [fetchParams]
  | succ n ih =>
    simp only [fetchParams, andThen_eq_faults, memRead_nat, memRead_nat_faults, ih]
    constructor
    · rintro (⟨rfl, h⟩ | ⟨v, hv, ⟨j, hj, hl, hk, rfl⟩ | ⟨qs, _, h⟩⟩)
      · exact ⟨0, by omega, by omega, by omega, rfl⟩
      · obtain ⟨hlt, _⟩ := List.getElem?_eq_some_iff.mp hv
        refine ⟨j + 1, by omega, by omega, ?_, by congr 2; omega⟩
        intro k hkj
        cases k with
        | zero => omega
        | succ k => have := hk k (by omega); omega
      · cases h
    · rintro ⟨j, hj, hl, hk, rfl⟩
      cases j with
      | zero => exact .inl ⟨rfl, hl⟩
      | succ j =>
        have hlt : a < m.length := by simpa using hk 0 (by omega)
        refine .inr ⟨m[a], List.getElem?_eq_getElem hlt, .inl ⟨j, by omega, by omega, ?_, by congr 2; omega⟩⟩
        intro k hkj
        have := hk (k + 1) (by omega)
        omega

theorem fetchParams_ne_holds {m : Memory} {a n : Nat} : fetchParams m a n ≠ .holds := by
  induction n generalizing a with
  | zero => simp [fetchParams]
  | succ n ih => simp [fetchParams, andThen_eq_holds, memRead_ne_holds, ih]

theorem decodeStep_eq_completes {v : Int} {d : Decoded} : decodeStep v = .completes d ↔ decode v = .decoded d := by
  unfold decodeStep
  cases decode v <;> simp

theorem decodeStep_eq_faults {v : Int} {r : Raise} :
    decodeStep v = .faults r ↔ ∃ e, decode v = .rejected e ∧ r = .decodeError e v := by
  unfold decodeStep
  cases decode v <;> simp [eq_comm]

theorem decodeStep_ne_holds {v : Int} : decodeStep v ≠ .holds := by
  unfold decodeStep
  cases decode v <;> simp

theorem fetch_eq_completes {m : Memory} {ip : Nat} {i : Instr} :
    fetch m ip = .completes i ↔
      ∃ v d raw, m[ip]? = some v ∧ decode v = .decoded d ∧ fetchParams m (ip + 1) d.arity = .completes raw ∧
        i = d.instr raw := by
  simp only [fetch, andThen_eq_completes, memRead_nat, decodeStep_eq_completes, Attempt.completes.injEq]
  constructor
  · rintro ⟨v, hv, d, hd, raw, hr, rfl⟩; exact ⟨v, d, raw, hv, hd, hr, rfl⟩
  · rintro ⟨v, d, raw, hv, hd, hr, rfl⟩; exact ⟨v, hv, d, hd, raw, hr, rfl⟩

/-- The faults of a fetch, in the order they are tested (60_exceptions.md R139). -/
theorem fetch_eq_faults {m : Memory} {ip : Nat} {r : Raise} :
    fetch m ip = .faults r ↔
      (m.length ≤ ip ∧ r = .addressOutOfBounds (ip : Int)) ∨
      (∃ v e, m[ip]? = some v ∧ decode v = .rejected e ∧ r = .decodeError e v) ∨
      (∃ v d, m[ip]? = some v ∧ decode v = .decoded d ∧ fetchParams m (ip + 1) d.arity = .faults r) := by
  simp only [fetch, andThen_eq_faults, memRead_nat, memRead_nat_faults, decodeStep_eq_completes, decodeStep_eq_faults,
    reduceCtorEq, and_false, exists_false, or_false]
  constructor
  · rintro (⟨h, hl⟩ | ⟨v, hv, ⟨e, he, h⟩ | ⟨d, hd, h⟩⟩)
    · exact .inl ⟨hl, h⟩
    · exact .inr (.inl ⟨v, e, hv, he, h⟩)
    · exact .inr (.inr ⟨v, d, hv, hd, h⟩)
  · rintro (⟨hl, h⟩ | ⟨v, e, hv, he, h⟩ | ⟨v, d, hv, hd, h⟩)
    · exact .inl ⟨h, hl⟩
    · exact .inr ⟨v, hv, .inl ⟨e, he, h⟩⟩
    · exact .inr ⟨v, hv, .inr ⟨d, hd, h⟩⟩

theorem fetch_ne_holds {m : Memory} {ip : Nat} : fetch m ip ≠ .holds := by
  simp [fetch, andThen_eq_holds, memRead_ne_holds, decodeStep_ne_holds, fetchParams_ne_holds]

/-- What a completed fetch says of Memory: the opcode cell, the parameter cells, and that all of them lie inside. -/
theorem fetched_cells {m : Memory} {ip : Nat} {i : Instr} (h : fetch m ip = .completes i) :
    ∃ v d, m[ip]? = some v ∧ decode v = .decoded d ∧ i.kind = d.kind ∧ i.modes = d.modes ∧
      i.params = (m.drop (ip + 1)).take d.arity ∧ ip + i.width ≤ m.length := by
  obtain ⟨v, d, raw, hv, hd, hr, rfl⟩ := fetch_eq_completes.mp h
  obtain ⟨hl, rfl⟩ := fetchParams_eq_completes.mp hr
  have hlt := (List.getElem?_eq_some_iff.mp hv).1
  have hw : d.width = 1 + d.arity := rfl
  have hlen : ((m.drop (ip + 1)).take d.arity).length = d.arity := by
    simp only [List.length_take, List.length_drop]; omega
  refine ⟨v, d, hv, hd, by simp, Decoded.instr_modes hd _, Decoded.instr_params hlen, ?_⟩
  rw [Decoded.instr_width]; omega

/-- The faults of a fetch by kind. -/
theorem fetch_faults_kind {m : Memory} {ip : Nat} {r : Raise} (h : fetch m ip = .faults r) :
    (∃ a, r = .addressOutOfBounds a ∧ (m.length : Int) ≤ a) ∨
      ∃ v e, m[ip]? = some v ∧ decode v = .rejected e ∧ r = .decodeError e v := by
  rcases fetch_eq_faults.mp h with ⟨hl, rfl⟩ | h | ⟨v,d,_,_,h⟩
  · exact .inl ⟨_, rfl, by omega⟩
  · exact .inr h
  · obtain ⟨j,_,h,_,rfl⟩ := fetchParams_eq_faults.mp h
    exact .inl ⟨_, rfl, by omega⟩

/-! The step. -/

/-- What a step can do. -/
theorem step_eq_next {s t : State} :
    step s = .next t ↔
      s.mem ≠ [] ∧ s.rs = .running ∧
        ((∃ i, fetch s.mem s.ip = .completes i ∧ exec i s = .next t) ∨
         (∃ r, fetch s.mem s.ip = .faults r ∧ t = takeFault r s)) := by
  unfold step loopStep
  by_cases hm : s.mem = []
  · simp [hm]
  · rw [if_neg hm]
    cases hr : s.rs with
    | halted | faulted => simp
    | running =>
      simp only [runInstruction, ne_eq, hm, not_false_eq_true, true_and]
      cases hf : fetch s.mem s.ip with
      | completes i => simp
      | faults r => simp [eq_comm]
      | holds => exact absurd hf fetch_ne_holds

/-- The four ends of a step: a completed instruction, an instruction that faults, a fetch that faults, an input that holds. -/
theorem step_cases {s t : State} (h : step s = .next t) :
    s.mem ≠ [] ∧ s.rs = .running ∧
   ((∃ i u, fetch s.mem s.ip = .completes i ∧ body i s = .completes u ∧ t = u.advance i.width) ∨
    (∃ i r, fetch s.mem s.ip = .completes i ∧ body i s = .faults r ∧ t = takeFault r s) ∨
    (∃ r, fetch s.mem s.ip = .faults r ∧ t = takeFault r s) ∨
    (∃ p, fetch s.mem s.ip = .completes (.input p) ∧ s.nextInput = none ∧ s.config.inputPolicy = .blocking ∧ t = s)) := by
  obtain ⟨hm, hr, ⟨i, hf, he⟩ | ⟨r, hf, rfl⟩⟩ := step_eq_next.mp h
  · refine ⟨hm, hr, ?_⟩
    rcases exec_eq_next.mp he with ⟨u, hu, rfl⟩ | ⟨r, hu, rfl⟩ | ⟨hu, rfl⟩
    · exact .inl ⟨i,u,hf,hu,rfl⟩
    · exact .inr (.inl ⟨i,r,hf,hu,rfl⟩)
    · obtain ⟨p, rfl, h1, h2⟩ := body_eq_holds hu
      exact .inr (.inr (.inr ⟨p, hf, h1, h2, rfl⟩))
  · exact ⟨hm, hr, .inr (.inr (.inl ⟨r,hf,rfl⟩))⟩

/-! The run. -/

theorem run_succ {n : Nat} {s t : State} (hr : s.rs = .running) (h : step s = .next t) : run (n+1) s = run n t := by
  simp [run, hr, h]

/-- A run of one more step stands still at an ended machine, or takes a step and goes on. -/
theorem run_cases {n : Nat} {s t : State} (h : run (n + 1) s = .next t) :
    (s.rs ≠ .running ∧ t = s) ∨ ∃ u, step s = .next u ∧ run n u = .next t := by
  unfold run at h
  cases hr : s.rs with
  | halted | faulted => simp [hr] at h; exact .inl ⟨by simp, h.symm⟩
  | running =>
    simp only [hr] at h
    cases hs : step s with
    | next u => simp only [hs] at h; exact .inr ⟨u, rfl, h⟩
    | fault | refused => simp [hs] at h

end Sys2Proof.Machine
end

