-- ==== Sys2Proof/Laws/PerInstr.lean ====
section
/-!
SUPPORT. Statements about every instruction as syntax, one lemma per constructor.
-/

namespace Sys2Proof.Laws.EncodedShape

/-- The encoded instruction occupies its width in cells, its opcode value carries its kind, and it has one mode and one raw value
per parameter (30_encoding.md R50, R51, R56). -/
def Statement (i : Instr) : Prop :=
  (encode i).length = i.width ∧ encodeOpcode i % 100 = i.kind.code ∧
    i.modes.length = i.kind.arity ∧ i.params.length = i.kind.arity

theorem opcode_kind (i : Instr) : encodeOpcode i % 100 = i.kind.code := by
  have := i.kind.code_lt
  unfold encodeOpcode
  omega

theorem add (m0 m1 : Mode) (p0 p1 p2 : Int) : Statement (.add m0 m1 p0 p1 p2) := ⟨rfl, opcode_kind _, rfl, rfl⟩

theorem multiply (m0 m1 : Mode) (p0 p1 p2 : Int) : Statement (.multiply m0 m1 p0 p1 p2) :=
  ⟨rfl, opcode_kind _, rfl, rfl⟩

theorem input (p0 : Int) : Statement (.input p0) := ⟨rfl, opcode_kind _, rfl, rfl⟩

theorem output (m0 : Mode) (p0 : Int) : Statement (.output m0 p0) := ⟨rfl, opcode_kind _, rfl, rfl⟩

theorem halt : Statement .halt := ⟨rfl, opcode_kind _, rfl, rfl⟩

end Sys2Proof.Laws.EncodedShape
end

