-- ==== Sys2Proof/Tests/Slice0.lean ====
section
/-!
SUPPORT. The model's own tests: the WellFormed smoke, decode tests from the encodings of the spec, one-step tests whose results are
the spec's (spec/95_test_vectors.md), and for every statement a witness that meets its hypotheses.
-/

namespace Sys2Proof.Tests

open Sys2Proof Sys2Proof.Machine

/-! ### Helpers -/

/-- The state an outcome answers, if it answers one. -/
def nextOf (o : Host.Outcome State Fault Refusal) : Option State :=
  match o with
  | .next s => some s
  | .fault _ => none
  | .refused _ => none

theorem nextOf_eq_some (o : Host.Outcome State Fault Refusal) (t : State) : nextOf o = some t ↔ o = .next t := by
  cases o <;> simp [nextOf]

/-- A machine with the default parameters, a program just loaded and inputs ready. -/
def start (program inputs : List Int) : State := { State.reset with mem := program, inq := inputs }

/-- The same with `CELL_BITS = 8`. -/
def start8 (program inputs : List Int) : State := { start program inputs with config := ⟨some 8, none, .queue⟩ }

/-- The same with the blocking policy. -/
def startBlocking (program inputs : List Int) : State := { start program inputs with config := ⟨none, none, .blocking⟩ }

theorem test_start_is_load : load .default [7] [1, 0, 0, 0, 99] = .loaded (start [1, 0, 0, 0, 99] [7]) := by decide

/-! ### WellFormed: an ill-formed term for each operand of each instruction -/

theorem test_wellFormed_refuses :
    Instr.wellFormed (some 8) (.add .position .position 128 0 0) = false ∧
    Instr.wellFormed (some 8) (.add .position .immediate 0 (-129) 0) = false ∧
    Instr.wellFormed (some 8) (.add .position .position 0 0 128) = false ∧
    Instr.wellFormed (some 8) (.multiply .immediate .position 128 0 0) = false ∧
    Instr.wellFormed (some 8) (.multiply .position .position 0 128 0) = false ∧
    Instr.wellFormed (some 8) (.multiply .position .position 0 0 (-129)) = false ∧
    Instr.wellFormed (some 8) (.input 128) = false ∧
    Instr.wellFormed (some 8) (.output .immediate (-129)) = false := by decide

theorem test_wellFormed_accepts :
    Instr.wellFormed (some 8) (.add .position .immediate 127 (-128) 0) = true ∧
    Instr.wellFormed (some 8) .halt = true ∧
    Instr.wellFormed none (.input 340282366920938463463374607431768211456) = true := by decide

/-! ### Decoding: opcode values written out digit by digit, `kind + 100*m0 + 1000*m1` (30_encoding.md R66) -/

theorem test_decode_add : decodeCells [1 + 100 * 0 + 1000 * 1, 7, -8, 9] = .decoded (.add .position .immediate 7 (-8) 9) [] := by
  decide

theorem test_decode_multiply : decodeCells [2 + 100 * 1 + 1000 * 0, 7, -8, 9] =
    .decoded (.multiply .immediate .position 7 (-8) 9) [] := by decide

theorem test_decode_input : decodeCells [3 + 100 * 0, 5, 99] = .decoded (.input 5) [99] := by decide

theorem test_decode_output : decodeCells [4 + 100 * 1, -5, 99] = .decoded (.output .immediate (-5)) [99] := by decide

theorem test_decode_halt : decodeCells [99, 1, 2, 3] = .decoded .halt [1, 2, 3] := by decide

/-- 40_decoder.md R77 and 95_test_vectors.md D2. -/
theorem test_decode_refuses :
    decode 0 = .rejected .unknownKind ∧ decode 1198 = .rejected .unknownKind ∧ decode 100 = .rejected .unknownKind ∧
    decode 203 = .rejected .invalidMode ∧ decode 21101 = .rejected .invalidMode ∧ decode 10201 = .rejected .invalidMode ∧
    decode 11102 = .rejected .writeModeNonZero ∧ decode 103 = .rejected .writeModeNonZero ∧
    decode (-1) = .rejected .negativeOpcode := by decide

/-- 95_test_vectors.md D1: surplus high digits. -/
theorem test_decode_high :
    decode 100099 = .decoded ⟨.halt, []⟩ ∧ decode 11003 = .decoded ⟨.input, [.position]⟩ ∧
    decode 10104 = .decoded ⟨.output, [.immediate]⟩ ∧
    decode 101102 = .decoded ⟨.multiply, [.immediate, .immediate, .position]⟩ := by decide

/-- The words of spec/opcode_table.json as the host numbers them. -/
theorem test_tableWords :
    decodeTableWord 8 1 = some (.add .position .position 0 0 0) ∧ decodeTableWord 16 1102 = some (.multiply .immediate .immediate 0 0 0) ∧
    decodeTableWord 8 3 = some (.input 0) ∧ decodeTableWord 8 4 = some (.output .position 0) ∧ decodeTableWord 8 99 = some .halt ∧
    decodeTableWord 8 5 = none := by decide

/-! ### One step of each instruction -/

/-- 43_arithmetic.md R112, first row: the program overwrites its own opcode cell. -/
theorem test_add_overwrites_itself :
    (nextOf (step (start [1, 0, 0, 0, 99] []))).map (fun t => (t.mem, t.ip, t.icount)) = some ([2, 0, 0, 0, 99], 4, 1) := by decide

/-- 95_test_vectors.md A14: beyond 64 bits, exact. -/
theorem test_add_is_exact :
    (nextOf (step (start [1101, -9223372036854775808, -1, 5, 99, 0] []))).map (fun t => t.mem[5]?) =
      some (some (-9223372036854775809)) := by decide

/-- 95_test_vectors.md A5. -/
theorem test_multiply_signs :
    (nextOf (step (start [102, -3, 5, 5, 99, -7] []))).map (fun t => (t.mem, t.ip)) = some ([102, -3, 5, 5, 99, 21], 4) := by decide

/-- 95_test_vectors.md P6 with a finite `CELL_BITS`: the product 128 does not fit 8 bits, and nothing is stored. -/
theorem test_multiply_overflow :
    (nextOf (step (start8 [102, 64, 4, 5, 2, 0] []))).map (fun t => (t.report, t.mem, t.ip, t.icount)) =
      some (.failed .overflow .none 0 0, [102, 64, 4, 5, 2, 0], 0, 0) := by decide

/-- 44_io.md R115, the example. -/
theorem test_input_stores :
    (nextOf (step (start [3, 0, 4, 0, 99] [42]))).map (fun t => (t.mem, t.ip, t.inq)) = some ([42, 0, 4, 0, 99], 2, []) := by decide

/-- 43_arithmetic.md R110: with `CELL_BITS = 8` the boundary passes over 1000 and delivers 5. -/
theorem test_input_in_range :
    (match load ⟨some 8, none, .queue⟩ [1000, 5] [3, 0, 99] with
      | .loaded s => (nextOf (step s)).map (fun t => (t.mem, t.inq))
      | .failed _ => none) = some ([5, 0, 99], []) := by decide

/-- 44_io.md R122: the address is checked first, and the input is not consumed. -/
theorem test_input_out_of_bounds :
    (nextOf (step (start [3, 9, 99] [7]))).map (fun t => (t.report, t.inq)) = some (.failed .addressOutOfBounds .none 0 9, [7]) := by
  decide

/-- 95_test_vectors.md I3: an output of its own opcode cell. -/
theorem test_output_position :
    (nextOf (step (start [4, 0, 99] []))).map (fun t => (t.outlog, t.ip, t.mem)) = some ([4], 2, [4, 0, 99]) := by decide

/-- 95_test_vectors.md F3: nothing is emitted. -/
theorem test_output_out_of_bounds :
    (nextOf (step (start [4, -1, 99] []))).map (fun t => (t.report, t.outlog)) = some (.failed .addressOutOfBounds .none 0 (-1), []) := by
  decide

/-- 95_test_vectors.md H1: `halt` in the last cell. -/
theorem test_halt_in_the_last_cell :
    (nextOf (step (start [99] []))).map (fun t => (t.rs, t.ip, t.icount, t.mem)) = some (.halted, 1, 1, [99]) := by decide

/-- 60_exceptions.md R141: a fault after which the whole record can be read. -/
theorem test_fault_record :
    (nextOf (step (start [10001, 0, 0] []))).map (fun t => (t.report, t.mem, t.ip, t.icount)) =
      some (.failed .decodeError .writeModeNonZero 0 10001, [10001, 0, 0], 0, 0) := by decide

/-- The host's placing of a table word, from reset. -/
theorem test_withFetchWord :
    (nextOf (step (State.reset.withFetchWord 8 4))).map (fun t => (t.outlog, t.ip)) = some ([4], 2) ∧
    (nextOf (step (State.reset.withFetchWord 8 99))).map (fun t => t.rs) = some .halted ∧
    ((start [7, 7, 7, 7, 7, 7, 7] []).withFetchWord 8 1).mem = [1, 0, 0, 0, 7, 7, 7] := by decide

/-! ### Witnesses: for each statement, a state and operands that meet its hypotheses -/

theorem witness_DecodedKindAndModesAreDigits :
    decode 1002 = .decoded ⟨.multiply, [.position, .immediate, .position]⟩ ∧
    [Mode.position, .immediate, .position][1]? = some .immediate := by decide

theorem witness_AbsentModeDigitsArePosition :
    9 < 10 ^ 1 ∧ (99 : Int) < 100 ∧ decode 4 = .decoded ⟨.output, [.position]⟩ ∧ decode 99 = .decoded ⟨.halt, []⟩ := by decide

theorem witness_UnknownKindsAreRefused :
    (∀ k ∈ [(1 : Int), 2, 3, 4, 99], (0 : Int) % 100 ≠ k ∧ (5 : Int) % 100 ≠ k ∧ (198 : Int) % 100 ≠ k) ∧ (0 : Int) ≤ 0 ∧
    (start [0] []).rs = .running ∧ (start [0] []).mem[(start [0] []).ip]? = some 0 := by decide

theorem witness_DecoderRefusesInOrder :
    decode (-1) = .rejected .negativeOpcode ∧ decode 98 = .rejected .unknownKind ∧ decode 20001 = .rejected .invalidMode ∧
    decode 10001 = .rejected .writeModeNonZero ∧ decode 204 = .rejected .invalidMode := by decide

theorem witness_LegalOpcodeValuesAreExactlyThese :
    decode 1101 = .decoded ⟨.add, [.immediate, .immediate, .position]⟩ ∧ decode 199 = .decoded ⟨.halt, []⟩ := by decide

theorem witness_DecodedCellsEncodeBack :
    decodeCells [1000001, 0, 0, 0, 99] = .decoded (.add .position .position 0 0 0) [99] := by decide

theorem witness_MemReadAnswersTheCell :
    ((-1 : Int) < 0) ∧ (([10, 20] : Memory).length : Int) ≤ 2 ∧ (1 : Int) < ([10, 20] : Memory).length ∧
    fetch [104, -5, 99] 0 = .completes (.output .immediate (-5)) ∧
    (Instr.output .immediate (-5)).params[0]? = some (-5) := by decide

theorem witness_MemWriteStoresOneCell :
    ((start [10, 20] []).mem.length : Int) ≤ 2 ∧ (0 : Int) ≤ 1 ∧ (1 : Int) < (start [10, 20] []).mem.length ∧ (0 : Int) ≠ 1 := by
  decide

theorem witness_ResolverAnswersByMode :
    ([1002, 4, 3, 4, 33] : Memory)[(4 : Int).toNat]? = some 33 ∧ (4 : Int) < ([1002, 4, 3, 4, 33] : Memory).length ∧
    (([1002, 4, 3, 4, 33] : Memory).length : Int) ≤ 5 ∧ (-1 : Int) < 0 := by decide

theorem witness_OutOfBoundsEndsTheRun :
    (-1 : Int) ∈ addressesOf (.add .position .immediate (-1) 0 0) ∧ (5 : Int) ∈ addressesOf (.multiply .immediate .position 0 5 0) ∧
    (5 : Int) ∈ addressesOf (.input 5) ∧ (-1 : Int) ∈ addressesOf (.output .position (-1)) ∧
    ((start [1, 0, 0, 0, 99] []).mem.length : Int) ≤ 5 := by decide

theorem witness_LoadBuildsTheFreshState :
    Config.default.cellBits = none ∧ Config.default.maxLen = none ∧ ([0] : List Int) ≠ [] := by decide

theorem witness_LoadFailsExactlyWhen :
    load ⟨some 8, none, .queue⟩ [] [128] = .failed .invalidProgram ∧ load ⟨none, some 1, .queue⟩ [] [0, 0] = .failed .invalidProgram ∧
    load .default [] [] = .failed .invalidProgram ∧ load ⟨some 8, some 1, .queue⟩ [128] [127] ≠ .failed .invalidProgram := by decide

theorem witness_NoStepBeforeLoad : State.reset.mem = [] ∧ nextOf (step State.reset) = none := by decide

theorem witness_StepRunsTheDecodedInstruction :
    (start [99, 5] []).rs = .running ∧
    decodeCells ((start [99, 5] []).mem.drop (start [99, 5] []).ip) = .decoded .halt [5] := by decide

theorem witness_FetchReadsTheCellsAtIp :
    decodeCells (([7, 99] : Memory).drop 1) = .decoded .halt [] ∧ decodeCells (([7] : Memory).drop 0) = .rejected .unknownKind 7 ∧
    decodeCells (([1, 0, 0] : Memory).drop 0) = .missing 3 ∧ decodeCells (([1] : Memory).drop 1) = .missing 0 := by decide

/-- The state after the one instruction of `[1, 0, 0, 0]`: `ip = LEN`. -/
def atTheEnd : State := { start [2, 0, 0, 0] [] with ip := 4, icount := 1 }

theorem witness_OpcodeFetchFailsPastTheEnd :
    atTheEnd.rs = .running ∧ atTheEnd.mem ≠ [] ∧ atTheEnd.mem.length ≤ atTheEnd.ip ∧ atTheEnd.progressOk = true ∧
    (start [99] []).ip < (start [99] []).mem.length := by decide

theorem witness_DecodeErrorEndsTheStep :
    (start [10001, 0, 0] []).rs = .running ∧ (start [10001, 0, 0] []).mem[(start [10001, 0, 0] []).ip]? = some 10001 ∧
    decode 10001 = .rejected .writeModeNonZero := by decide

theorem witness_ParameterFetchIsBoundsChecked :
    decode 1 = .decoded ⟨.add, [.position, .position, .position]⟩ ∧
    (start [1, 0, 0] []).rs = .running ∧ (start [1, 0, 0] []).mem[(start [1, 0, 0] []).ip]? = some 1 ∧
    (∀ k, k < 2 → (start [1, 0, 0] []).ip + 1 + k < (start [1, 0, 0] []).mem.length) ∧
    (start [1, 0, 0] []).mem.length ≤ (start [1, 0, 0] []).ip + 1 + 2 ∧
    (start [1] []).mem.length ≤ (start [1] []).ip + 1 + 0 ∧
    (start [1, 0, 0, 0] []).ip + Kind.add.width ≤ (start [1, 0, 0, 0] []).mem.length := by decide

/-- A machine that has executed its `halt`. -/
def halted : State := { start [99] [] with rs := .halted, ip := 1, icount := 1 }

/-- A machine that has faulted on an opcode value of 0. -/
def failedMachine : State := { start [0] [] with rs := .faulted, fcause := .decodeError, fsub := .unknownKind }

theorem witness_EndedMachineTakesNoStep :
    halted.mem ≠ [] ∧ halted.rs = .halted ∧ failedMachine.mem ≠ [] ∧ failedMachine.rs = .faulted := by decide

theorem witness_RunStateTransitions :
    halted.rs ≠ .running ∧ nextOf (step (start [99] [])) = some halted ∧ nextOf (step (start [0] [])) = some failedMachine ∧
    nextOf (step (start [104, 0] [])) = some { start [104, 0] [] with ip := 2, icount := 1, outlog := [0] } ∧
    nextOf (step (startBlocking [3, 0] [])) = some (startBlocking [3, 0] []) := by decide

/-- Hypotheses of the statement, and a step of each of its outcomes. -/
theorem witness_StepHasOneOfFourOutcomes :
    (start [99] []).rs = .running ∧ (start [99] []).mem ≠ [] ∧ nextOf (step (start [99] [])) = some halted ∧
    writeAddress (start [1, 0, 0, 0] []).mem 0 = .completes 0 ∧ nextOf (step (start [1, 0, 0, 0] [])) = some atTheEnd ∧
    nextOf (step (start [3, 1] [7])) = some { start [3, 7] [] with ip := 2, icount := 1 } ∧
    nextOf (step (start [4, 1] [])) = some { start [4, 1] [] with ip := 2, icount := 1, outlog := [1] } ∧
    nextOf (step (start [0] [])) = some failedMachine ∧
    nextOf (step (startBlocking [3, 0] [])) = some (startBlocking [3, 0] []) := by decide

/-- The sum is the largest value of 8 bits; the destination is the last cell. -/
theorem witness_AddStoresTheSum :
    readOperand (start8 [101, 126, 4, 4, 1] []).mem 126 .immediate = .completes 126 ∧
    readOperand (start8 [101, 126, 4, 4, 1] []).mem 4 .position = .completes 1 ∧
    (0 : Int) ≤ 4 ∧ (4 : Int) < (start8 [101, 126, 4, 4, 1] []).mem.length ∧
    cellInRange (start8 [101, 126, 4, 4, 1] []).config.cellBits (126 + 1) = true := by decide

/-- The product is the smallest value of 8 bits. -/
theorem witness_MultiplyStoresTheProduct :
    readOperand (start8 [102, -64, 4, 0, 2] []).mem (-64) .immediate = .completes (-64) ∧
    readOperand (start8 [102, -64, 4, 0, 2] []).mem 4 .position = .completes 2 ∧
    (0 : Int) ≤ 0 ∧ (0 : Int) < (start8 [102, -64, 4, 0, 2] []).mem.length ∧
    cellInRange (start8 [102, -64, 4, 0, 2] []).config.cellBits (-64 * 2) = true := by decide

theorem witness_InputStoresTheNextValue :
    (startBlocking [3, 1] [-7, 8]).inq = -7 :: [8] ∧ cellInRange (startBlocking [3, 1] [-7, 8]).config.cellBits (-7) = true ∧
    (start8 [3, 1] [-128]).inq = -128 :: [] ∧ cellInRange (start8 [3, 1] [-128]).config.cellBits (-128) = true ∧
    (0 : Int) ≤ 1 ∧ (1 : Int) < (startBlocking [3, 1] [-7, 8]).mem.length ∧ (1 : Int) < (start8 [3, 1] [-128]).mem.length := by decide

theorem witness_OutputEmitsTheOperand :
    readOperand (start [4, 1] []).mem 1 .position = .completes 1 ∧ readOperand (start [4, 1] []).mem (-5) .immediate = .completes (-5) := by
  decide

theorem witness_ArithmeticFaultsInOrder :
    ((-1 : Int) < 0) ∧ ((start8 [1, 0, 0, 0, 99] []).mem.length : Int) ≤ 5 ∧
    readOperand (start8 [1, 0, 0, 0, 99] []).mem 4 .position = .completes 99 ∧
    readOperand (start8 [1, 0, 0, 0, 99] []).mem 29 .immediate = .completes 29 ∧
    (0 : Int) ≤ 4 ∧ (4 : Int) < (start8 [1, 0, 0, 0, 99] []).mem.length ∧
    (start8 [1, 0, 0, 0, 99] []).config.cellBits = some 8 ∧ (2 : Int) ^ (8 - 1) ≤ 99 + 29 ∧
    (start [1, 0, 0, 0, 99] []).config.cellBits = none := by decide

theorem witness_ExhaustedInputFaultsAfterTheAddressCheck :
    (0 : Int) ≤ 1 ∧ (1 : Int) < (start [3, 1] []).mem.length ∧ (start [3, 1] []).inq = [] ∧
    (start [3, 1] []).config.inputPolicy = .queue ∧ ((start [3, 1] []).mem.length : Int) ≤ 2 := by decide

theorem witness_OutputFaultsOnlyOutOfBounds :
    nextOf (exec (.output .position 2) (start [4, 2] [])) = some (takeFault (.addressOutOfBounds 2) (start [4, 2] [])) ∧
    (nextOf (exec (.output .position 1) (start [4, 1] []))).map (fun t => t.icount) = some 1 := by decide

theorem witness_InputHoldsUntilSupplied :
    (startBlocking [3, 1] []).rs = .running ∧ (startBlocking [3, 1] []).config.inputPolicy = .blocking ∧
    (startBlocking [3, 1] []).inq = [] ∧
    fetch (startBlocking [3, 1] []).mem (startBlocking [3, 1] []).ip = .completes (.input 1) ∧ (0 : Int) ≤ 1 ∧
    deliverable (startBlocking [3, 1] []).config [5, 6] = 5 :: [6] ∧ deliverable ⟨some 8, none, .blocking⟩ [128, 127] = [127] ∧
    (1 : Int) < (startBlocking [3, 1] []).mem.length := by decide

theorem witness_ArithmeticFrame :
    (nextOf (exec (.add .position .position 0 0 4) (start [1, 0, 0, 4, 99] []))).isSome = true ∧
    writeAddress (start [1, 0, 0, 4, 99] []).mem 4 = .completes 4 ∧
    (nextOf (exec (.multiply .position .position 0 0 5) (start [2, 0, 0, 5, 99] []))).isSome = true ∧
    writeAddress (start [2, 0, 0, 5, 99] []).mem 5 = .faults (.addressOutOfBounds 5) := by decide

theorem witness_InputFrame :
    (nextOf (exec (.input 0) (start [3, 0] [5]))).isSome = true ∧ writeAddress (start [3, 0] [5]).mem 0 = .completes 0 ∧
    (nextOf (exec (.input 2) (start [3, 2] [5]))).isSome = true ∧
    writeAddress (start [3, 2] [5]).mem 2 = .faults (.addressOutOfBounds 2) ∧
    nextOf (exec (.input 0) (startBlocking [3, 0] [])) = some (startBlocking [3, 0] []) := by decide

theorem witness_OutputAndHaltFrame :
    (nextOf (exec (.output .position 0) (start [4, 0] []))).isSome = true ∧
    (nextOf (exec (.output .position (-1)) (start [4, -1] []))).isSome = true ∧
    (nextOf (exec .halt (start [99] []))).isSome = true := by decide

theorem witness_SourcesMayBeSwapped :
    readOperand (start [101, 100, 4, 4, 4] []).mem 100 .immediate = .completes 100 ∧
    readOperand (start [101, 100, 4, 4, 4] []).mem 4 .position = .completes 4 := by decide

/-- The stored values 99 (95_test_vectors.md A3, I6) into an opcode cell, and 7 into a parameter cell, at both ends of Memory. -/
theorem witness_NextFetchSeesTheStore :
    readOperand (start [1101, 100, -1, 4, 0] []).mem 100 .immediate = .completes 100 ∧
    readOperand (start [1101, 100, -1, 4, 0] []).mem (-1) .immediate = .completes (-1) ∧
    (0 : Int) ≤ 4 ∧ (4 : Int) < (start [1101, 100, -1, 4, 0] []).mem.length ∧
    (start [3, 2, 0] [99]).inq = 99 :: [] ∧ (2 : Int) < (start [3, 2, 0] [99]).mem.length ∧
    cellInRange none 99 = true ∧ decode 0 = .rejected .unknownKind ∧ fetch [1101, 100, -1, 4, 99] 4 = .completes .halt ∧
    (start [3, 3, 104, 0] [7]).inq = 7 :: [] ∧ (3 : Int) < (start [3, 3, 104, 0] [7]).mem.length ∧
    fetch [3, 3, 104, 7] 2 = .completes (.output .immediate 7) ∧ 0 < (Instr.output .immediate 7).params.length := by decide

/-- A value out of range at the boundary, with `CELL_BITS = 8` and each policy; an offer of such a value to `load` and to the supply. -/
theorem witness_BoundaryDeliversOnlyValuesInRange :
    load ⟨some 8, none, .queue⟩ [128, -128] [3, 0, 99] = .loaded (start8 [3, 0, 99] [-128]) ∧
    (∀ v ∈ ([127, -128] : List Int), cellInRange (some 8) v = true) ∧ ((start8 [3, 0, 99] []).supply [1000, 5]).inq = [5] ∧
    (nextOf (step (start8 [3, 0, 99] [5]))).map (fun t => t.icount) = some 1 ∧ fetch [3, 0, 99] 0 = .completes (.input 0) ∧
    (start8 [3, 0, 99] [128]).inq = 128 :: [] ∧ cellInRange (some 8) 128 = false ∧ (0 : Int) ≤ 0 ∧
    (0 : Int) < (start8 [3, 0, 99] [128]).mem.length ∧ (start8 [3, 0, 99] [128]).config.inputPolicy = .queue ∧
    nextOf (exec (.input 0) { startBlocking [3, 0, 99] [128] with config := ⟨some 8, none, .blocking⟩ }) =
      some { startBlocking [3, 0, 99] [128] with config := ⟨some 8, none, .blocking⟩ } := by decide

theorem witness_IpChangesOnlyByTheAdvance :
    nextOf (step (start [99] [])) = some halted ∧ load .default [] [99] = .loaded (start [99] []) := by decide

theorem witness_IoEventsFollowTheInstructions :
    fetch (start [3, 0] [5]).mem 0 = .completes (.input 0) ∧
    (nextOf (step (start [3, 0] [5]))).map (fun t => t.icount) = some 1 ∧
    fetch (start [104, 5] []).mem 0 = .completes (.output .immediate 5) ∧
    (nextOf (step (start [104, 5] []))).map (fun t => t.icount) = some 1 ∧
    nextOf (step (start [0] [])) = some failedMachine ∧ failedMachine.rs = .faulted := by decide

theorem witness_FaultEntryWritesOnlyTheRecord :
    nextOf (step (start [0] [])) = some failedMachine ∧ failedMachine.rs = .faulted ∧ failedMachine.fcause = .decodeError ∧
    (nextOf (step atTheEnd)).map (fun t => (t.rs, t.fcause)) = some (.faulted, .addressOutOfBounds) ∧
    (nextOf (step (start [3, 0] []))).map (fun t => (t.rs, t.fcause)) = some (.faulted, .inputExhausted) ∧
    (nextOf (step (start8 [101, 127, 4, 0, 1] []))).map (fun t => (t.rs, t.fcause)) = some (.faulted, .overflow) := by decide

theorem witness_HostReadsTheEndOfTheRun :
    (start [99] []).rs = .running ∧ halted.rs = .halted ∧ failedMachine.rs = .faulted ∧ halted.mem ≠ [] := by decide

theorem witness_ValuesStayInRange :
    (start8 [101, 126, 4, 4, 1] [-128]).valuesOk = true ∧ (nextOf (step (start8 [101, 126, 4, 4, 1] [-128]))).isSome = true ∧
    (start8 [128] []).valuesOk = false := by decide

theorem witness_ProgressStaysBounded :
    (start [1, 0, 0, 0] []).progressOk = true ∧ nextOf (step (start [1, 0, 0, 0] [])) = some atTheEnd ∧
    { start [99] [] with ip := 2 }.progressOk = false := by decide

theorem witness_EveryStepLeavesALegalEnd :
    nextOf (step (start [99] [])) = some halted ∧ { halted with mem := [98] }.endOk = false ∧
    { failedMachine with finfo := 5 }.endOk = false := by decide

theorem witness_LoadMeetsTheInvariants :
    Config.valid ⟨some 8, some 1, .blocking⟩ = true ∧
    load ⟨some 8, some 1, .blocking⟩ [127, 128, -128] [99] =
      .loaded { State.reset with config := ⟨some 8, some 1, .blocking⟩, mem := [99], inq := [127, -128] } := by decide

theorem witness_FetchedInstructionsAreWellFormed :
    Memory.wf (some 8) [3, 127] = true ∧ fetch [3, 127] 0 = .completes (.input 127) := by decide

theorem witness_RunsEndWithinTheLengthOfMemory :
    (start [104, 1, 99] []).mem ≠ [] ∧ (start [104, 1, 99] []).config.inputPolicy = .queue ∧
    (start [104, 1, 99] []).mem.length - (start [104, 1, 99] []).ip + 1 ≤ 4 := by decide

theorem witness_RunsOnlyMoveForward :
    (nextOf (run 3 (start [3, 0, 4, 0, 99] [42, 43]))).map (fun t => (t.inq, t.outlog)) = some ([43], [42]) := by decide

theorem witness_UnusedInputsDoNotMatter :
    (nextOf (run 2 (start [99] [7]))).map (fun t => t.rs) = some .halted ∧
    (nextOf (run 2 (start [0] [7]))).map (fun t => (t.rs, t.fcause)) = some (.faulted, .decodeError) := by decide

/-! ### One step keeps a program that rewrites itself honest -/

/-- 20_memory.md R42, the document's own example: the `multiply` is decoded from the cell just stored. -/
theorem test_fetch_sees_the_store :
    (nextOf (step { start [1, 1, 1, 4, 2, 5, 6, 0, 99] [] with ip := 4, icount := 1 })).map (fun t => (t.mem, t.ip)) =
      some ([30, 1, 1, 4, 2, 5, 6, 0, 99], 8) := by decide

end Sys2Proof.Tests
end

/-! SUPPORT. Reads of Memory: `MemRead` inside and outside the bounds, and the cells a fetched instruction was read from
(20_memory.md R31, 30_encoding.md R50). -/

namespace Sys2Proof.Machine

theorem memRead_outside {m : Memory} {a : Int} (h : a < 0 ∨ (m.length : Int) ≤ a) :
    memRead m a = .faults (.addressOutOfBounds a) :=
  memRead_eq_faults.mpr ⟨rfl, h⟩

theorem memRead_inside {m : Memory} {a : Int} (h0 : 0 ≤ a) (hl : a < m.length) :
    ∃ v, m[a.toNat]? = some v ∧ memRead m a = .completes v := by
  have hcell : m[a.toNat]? = some (m[a.toNat]'(by omega)) := List.getElem?_eq_getElem _
  exact ⟨_, hcell, memRead_eq_completes.mpr ⟨h0, hcell⟩⟩

@[simp] theorem readOperand_position (m : Memory) (raw : Int) : readOperand m raw .position = memRead m raw := rfl

theorem width_eq_one_add_params_length (i : Instr) : i.width = 1 + i.params.length := by
  cases i <;> rfl

/-- The opcode cell of a fetched instruction is the cell at `ip`, and it decodes to the instruction's kind and modes. -/
theorem fetch_opcode_cell {m : Memory} {ip : Nat} {i : Instr} (h : fetch m ip = .completes i) :
    ∃ v, memRead m ip = .completes v ∧ decode v = .decoded ⟨i.kind, i.modes⟩ := by
  obtain ⟨v, d, hv, hd, hkind, hmodes, -, -⟩ := fetched_cells h
  exact ⟨v, memRead_nat.mpr hv, by rw [hkind, hmodes, hd]⟩

/-- Parameter `j` of a fetched instruction is the cell `1 + j` places after its opcode cell. -/
theorem fetch_param_cell {m : Memory} {ip : Nat} {i : Instr} (h : fetch m ip = .completes i) {j : Nat} {p : Int}
    (hp : i.params[j]? = some p) : memRead m (ip + 1 + j : Nat) = .completes p := by
  obtain ⟨_, d, -, -, -, -, hparams, -⟩ := fetched_cells h
  rw [hparams, List.getElem?_take, Option.ite_none_right_eq_some, List.getElem?_drop] at hp
  exact memRead_nat.mpr hp.2

/-- Settles O10, from the two cases of `MemRead` and the cells that a completed fetch has read. -/
theorem memReadAnswersTheCell : Obligations.MemReadAnswersTheCell := by
  intro m a
  refine ⟨memRead_outside, memRead_inside, readOperand_position m a, fun ip i hfetch => ?_⟩
  exact ⟨fetch_opcode_cell hfetch, width_eq_one_add_params_length i, fun _ _ hp => fetch_param_cell hfetch hp⟩

end Sys2Proof.Machine

/-! SUPPORT. The fields of an accepted opcode value: its kind number, its mode digits, and the digits it does not reach
(30_encoding.md R51, R54, R56). -/

namespace Sys2Proof

theorem dig_eq_zero_of_lt {v k : Nat} (h : v < 10 ^ k) : dig v k = 0 := by
  simp [dig, Nat.div_eq_of_lt h]

theorem Mode.digit_eq_zero {m : Mode} : m.digit = 0 ↔ m = .position := by
  cases m <;> decide

/-- An accepted value is not negative, and its two low digits are the number of its kind. -/
theorem decoded_code {v : Int} {d : Decoded} (h : decode v = .decoded d) : 0 ≤ v ∧ (d.kind.code : Int) = v % 100 := by
  obtain ⟨hnonneg, hkind, -⟩ := decode_eq_decoded.mp h
  exact ⟨hnonneg, by omega⟩

theorem decoded_mode_digit {v : Int} {d : Decoded} (h : decode v = .decoded d) {i : Nat} {m : Mode}
    (hm : d.modes[i]? = some m) : m.digit = dig v.toNat (i + 2) := by
  obtain ⟨-, -, hmodes⟩ := decode_eq_decoded.mp h
  simpa using (decodeModes_get hmodes hm).1.symm

/-- A value of two digits reaches no mode digit, so each is 0, the digit of position mode. -/
theorem decoded_mode_position {v : Int} {d : Decoded} (hv : v < 100) (h : decode v = .decoded d) {m : Mode}
    (hm : m ∈ d.modes) : m = .position := by
  obtain ⟨i, hi⟩ := List.mem_iff_getElem?.mp hm
  have hreach : v.toNat < 10 ^ (i + 2) :=
    calc v.toNat < 10 ^ 2 := by omega
      _ ≤ 10 ^ (i + 2) := Nat.pow_le_pow_right (by decide) (by omega)
  rw [← Mode.digit_eq_zero, decoded_mode_digit h hi, dig_eq_zero_of_lt hreach]

/-- The number of a kind, alone, is that kind with every parameter in position mode. -/
theorem decode_code (k : Kind) : decode k.code = .decoded ⟨k, List.replicate k.arity .position⟩ := by
  cases k <;> rfl

theorem decode_unknownKind {v : Int} (h : 0 ≤ v) (h1 : v % 100 ≠ 1) (h2 : v % 100 ≠ 2) (h3 : v % 100 ≠ 3)
    (h4 : v % 100 ≠ 4) (h99 : v % 100 ≠ 99) : decode v = .rejected .unknownKind := by
  have hnone : Kind.ofCode (v.toNat % 100) = none := Kind.ofCode_eq_none.mpr (by omega)
  exact decode_eq_rejected.mpr (.inr (.inl ⟨h, hnone, rfl⟩))

/-- Settles O1, from what the Decoder accepts, read on integers. -/
theorem decodedKindAndModesAreDigits : Obligations.DecodedKindAndModesAreDigits := by
  intro v d h
  obtain ⟨hnonneg, hcode⟩ := decoded_code h
  refine ⟨hnonneg, hcode, decoded_modes_length h, fun i m hm => ?_⟩
  rw [decoded_mode_digit h hm, dig_toNat hnonneg]

/-- Settles O2: a digit above the value is 0, and 0 is the digit of position mode. -/
theorem absentModeDigitsArePosition : Obligations.AbsentModeDigitsArePosition :=
  ⟨fun _ _ => dig_eq_zero_of_lt, fun _ _ hv h _ => decoded_mode_position hv h,
    decode_code .add, decode_code .multiply, decode_code .input, decode_code .output⟩

/-- Settles O9, from the kind an accepted value selects and the numbers that name a kind; the rest is the table itself. -/
theorem instructionTableIsTheSpecs : Obligations.InstructionTableIsTheSpecs :=
  ⟨fun _ _ => decoded_code, fun _ _ => Kind.ofCode_eq_some, by decide⟩

end Sys2Proof

/-! SUPPORT. The step that meets an opcode value the Decoder refuses (42_step_loop.md R92, 30_encoding.md R60). -/

namespace Sys2Proof.Machine

/-- A refused opcode value is a fault of the fetch, taken in the state before the step. -/
theorem step_of_decode_rejected {s : State} {v : Int} {e : DecodeError} (hrun : s.rs = .running)
    (hcell : s.mem[s.ip]? = some v) (h : decode v = .rejected e) :
    step s = .next (takeFault (.decodeError e v) s) := by
  have hloaded : s.mem ≠ [] := fun hnil => by simp [hnil] at hcell
  have hfetch : fetch s.mem s.ip = .faults (.decodeError e v) :=
    fetch_eq_faults.mpr (.inr (.inl ⟨v, e, hcell, h, rfl⟩))
  exact step_eq_next.mpr ⟨hloaded, hrun, .inr ⟨_, hfetch, rfl⟩⟩

/-- Settles O3: the Decoder refuses the value, and taking that fault writes the run state and the record only. -/
theorem unknownKindsAreRefused : Obligations.UnknownKindsAreRefused := by
  intro v h h1 h2 h3 h4 h99
  have hrejected := decode_unknownKind h h1 h2 h3 h4 h99
  exact ⟨hrejected, fun s hrun hcell =>
    ⟨_, step_of_decode_rejected hrun hcell hrejected, rfl, rfl, rfl, rfl⟩⟩

end Sys2Proof.Machine

/-! SUPPORT. The Operand resolver, answer by answer: a position read, a write target, and either of them outside Memory
(41_operand_resolver.md R80). -/

namespace Sys2Proof.Machine

theorem readOperand_position_inside {m : Memory} {raw v : Int} (h0 : 0 ≤ raw) (hcell : m[raw.toNat]? = some v) :
    readOperand m raw .position = .completes v :=
  readOperand_eq_completes.mpr (.inr ⟨rfl, h0, hcell⟩)

@[simp] theorem readOperand_immediate (m : Memory) (raw : Int) : readOperand m raw .immediate = .completes raw := rfl

theorem readOperand_position_outside {m : Memory} {raw : Int} (h : raw < 0 ∨ (m.length : Int) ≤ raw) :
    readOperand m raw .position = .faults (.addressOutOfBounds raw) :=
  readOperand_eq_faults.mpr ⟨rfl, rfl, h⟩

theorem writeAddress_inside {m : Memory} {raw : Int} (h0 : 0 ≤ raw) (hl : raw < m.length) :
    writeAddress m raw = .completes raw :=
  checkAddr_eq_completes.mpr ⟨rfl, h0, hl⟩

theorem writeAddress_outside {m : Memory} {raw : Int} (h : raw < 0 ∨ (m.length : Int) ≤ raw) :
    writeAddress m raw = .faults (.addressOutOfBounds raw) :=
  checkAddr_eq_faults.mpr ⟨rfl, h⟩

/-- Settles O12: the resolver's three answers inside Memory, and its fault for each use of an address outside. -/
theorem resolverAnswersByMode : Obligations.ResolverAnswersByMode := by
  intro m raw
  exact ⟨fun _ => readOperand_position_inside, readOperand_immediate m raw, writeAddress_inside,
    fun hout => ⟨readOperand_position_outside hout, writeAddress_outside hout⟩⟩

end Sys2Proof.Machine

/-! SUPPORT. What moves `ip`, and what a `DecodeError` leaves of the state (42_step_loop.md R92, R98). -/

namespace Sys2Proof.Machine

/-- A successful `load`: the program passes the three checks of 70_reset_and_hazards.md R164, and the state is the fresh one. -/
theorem load_eq_loaded {c : Config} {inputs program : List Int} {s : State} :
    load c inputs program = .loaded s ↔
      (program ≠ [] ∧ tooLong c program.length = false ∧ Memory.wf c.cellBits program = true) ∧
        s = { State.reset with config := c, mem := program, inq := deliverable c inputs } := by
  unfold load
  split
  next hbad =>
    refine iff_of_false nofun ?_
    rintro ⟨⟨hprogram, hlength, hvalues⟩, -⟩
    simp [hprogram, hlength, hvalues] at hbad
  next hgood =>
    simp only [not_or, Bool.not_eq_true, Bool.not_eq_false] at hgood
    rw [LoadResult.loaded.injEq, eq_comm, and_iff_right hgood]

/-- Of the four ends of a step, only the completed instruction moves `ip`. -/
theorem step_ip {s t : State} (h : step s = .next t) :
    t.ip = s.ip ∨ ∃ i, fetch s.mem s.ip = .completes i ∧ t.ip = s.ip + i.width := by
  obtain ⟨-, -, hend⟩ := step_cases h
  rcases hend with ⟨i, u, hfetch, hbody, rfl⟩ | ⟨_, r, -, -, rfl⟩ | ⟨r, -, rfl⟩ | ⟨_, -, -, -, rfl⟩
  · obtain ⟨⟨hip, -⟩, -⟩ := body_completes_frame hbody
    exact .inr ⟨i, hfetch, by rw [advance_ip, hip]⟩
  · exact .inl (takeFault_ip s r)
  · exact .inl (takeFault_ip s r)
  · exact .inl rfl

/-- Settles O39: a step moves `ip` only by the width of the instruction it completes, and `load` starts from the reset state. -/
theorem ipChangesOnlyByTheAdvance : Obligations.IpChangesOnlyByTheAdvance := by
  refine ⟨fun _ _ => step_ip, fun c inputs program s hload => ?_⟩
  obtain ⟨-, rfl⟩ := load_eq_loaded.mp hload
  rfl

/-- Settles O20: the step takes the fault in the state before it, whatever cells follow the opcode cell, and taking a fault
writes the run state and the record only. -/
theorem decodeErrorEndsTheStep : Obligations.DecodeErrorEndsTheStep := by
  intro s v e hrun hcell hrejected
  exact ⟨_, step_of_decode_rejected hrun hcell hrejected, rfl, rfl, rfl, rfl, rfl, rfl, rfl⟩

end Sys2Proof.Machine

/-! SUPPORT. What crosses the two boundaries in one step (44_io.md R119). -/

namespace Sys2Proof.Machine

/-- The event at the boundaries that the completed instruction owes, from `s` to `t`: `input` takes the first value, `output` emits
its operand as Memory has it in `s`, any other instruction owes none. -/
def IoEvent (i : Instr) (s t : State) : Prop :=
  match i with
  | .input _ => ∃ x, s.inq = x :: t.inq ∧ t.outlog = s.outlog
  | .output m0 p0 => ∃ v, readOperand s.mem p0 m0 = .completes v ∧ t.outlog = s.outlog ++ [v] ∧ t.inq = s.inq
  | .add .. | .multiply .. | .halt => t.inq = s.inq ∧ t.outlog = s.outlog

theorem body_completes_ioEvent {i : Instr} {s u : State} (h : body i s = .completes u) : IoEvent i s u := by
  cases i with
  | add | multiply => obtain ⟨a, b, -, -, -, -, rfl⟩ := arithBody_eq_completes.mp h; exact ⟨rfl, rfl⟩
  | input => obtain ⟨-, x, rest, hinq, -, rfl⟩ := inputBody_eq_completes.mp h; exact ⟨x, hinq, rfl⟩
  | output => obtain ⟨v, hread, rfl⟩ := outputBody_eq_completes.mp h; exact ⟨v, hread, rfl, rfl⟩
  | halt => cases h; exact ⟨rfl, rfl⟩

/-- The advance and the count touch neither boundary. -/
@[simp] theorem ioEvent_advance {i : Instr} {s u : State} {w : Nat} : IoEvent i s (u.advance w) ↔ IoEvent i s u := by
  cases i <;> rfl

/-- A step counts a completed instruction together with its event, or it leaves the counter and both boundaries alone. -/
theorem step_io {s t : State} (h : step s = .next t) :
    (∃ i, fetch s.mem s.ip = .completes i ∧ IoEvent i s t ∧ t.rs = (if i = .halt then .halted else .running) ∧
        t.icount = s.icount + 1) ∨
      ((t.inq = s.inq ∧ t.outlog = s.outlog) ∧ t.icount = s.icount) := by
  obtain ⟨-, hrun, hend⟩ := step_cases h
  rcases hend with ⟨i, u, hfetch, hbody, rfl⟩ | ⟨_, _, -, -, rfl⟩ | ⟨_, -, rfl⟩ | ⟨_, -, -, -, rfl⟩
  · obtain ⟨⟨-, hcount, -⟩, -⟩ := body_completes_frame hbody
    refine .inl ⟨i, hfetch, ioEvent_advance.mpr (body_completes_ioEvent hbody), ?_, ?_⟩
    · rw [advance_rs, body_completes_rs hbody, hrun]
    · rw [advance_icount, hcount]
  · exact .inr ⟨⟨rfl, rfl⟩, rfl⟩
  · exact .inr ⟨⟨rfl, rfl⟩, rfl⟩
  · exact .inr ⟨⟨rfl, rfl⟩, rfl⟩

/-- The fetched instruction, once counted, has had its event. -/
theorem step_counted_ioEvent {s t : State} {i : Instr} (h : step s = .next t) (hfetch : fetch s.mem s.ip = .completes i)
    (hcount : t.icount = s.icount + 1) : IoEvent i s t := by
  obtain ⟨j, hfetch', hevent, -, -⟩ | ⟨-, hcount'⟩ := step_io h
  · obtain rfl : i = j := Attempt.completes.inj (hfetch.symm.trans hfetch')
    exact hevent
  · omega

/-- Settles O40, from the event of the completed instruction; every other end of a step leaves both boundaries alone. -/
theorem ioEventsFollowTheInstructions : Obligations.IoEventsFollowTheInstructions := by
  intro s t h
  refine ⟨?_, fun p0 hfetch hcount => ?_, fun m0 p0 hfetch hcount => ?_, fun hfaulted => ?_⟩
  · obtain ⟨i, hfetch, hevent, hrs, -⟩ | ⟨hsame, -⟩ := step_io h
    · cases i with
      | add | multiply | halt => exact .inl hevent
      | input p0 =>
        obtain ⟨x, hinq, hout⟩ := hevent
        exact .inr (.inl ⟨p0, x, hfetch, hinq, hout, hrs⟩)
      | output m0 p0 =>
        obtain ⟨v, hread, hout, hinq⟩ := hevent
        exact .inr (.inr ⟨m0, p0, v, hfetch, hread, hout, hinq, hrs⟩)
    · exact .inl hsame
  · obtain ⟨x, hinq, -⟩ := step_counted_ioEvent h hfetch hcount
    exact ⟨x, hinq⟩
  · obtain ⟨v, -, hout, -⟩ := step_counted_ioEvent h hfetch hcount
    exact ⟨v, hout⟩
  · obtain ⟨i, -, -, hrs, -⟩ | ⟨hsame, -⟩ := step_io h
    · rw [hfaulted] at hrs
      split at hrs <;> cases hrs
    · exact hsame

end Sys2Proof.Machine

/-! SUPPORT. `load` where no parameter is finite: only the empty program fails (70_reset_and_hazards.md R160, R164). -/

namespace Sys2Proof.Machine

theorem load_empty (c : Config) (inputs : List Int) : load c inputs [] = .failed .invalidProgram := rfl

/-- Without `MAX_LEN` no program is too long (70_reset_and_hazards.md D17). -/
theorem tooLong_of_maxLen_none {c : Config} (h : c.maxLen = none) (n : Nat) : tooLong c n = false := by
  rw [tooLong, h]

/-- Without `CELL_BITS` every integer is a cell. -/
theorem Memory.wf_none (m : Memory) : Memory.wf none m = true :=
  Memory.wf_iff.mpr fun _ _ => rfl

/-- With no finite parameter, two of the three checks of a program cannot fail. -/
theorem load_of_unbounded {c : Config} {inputs program : List Int} (hbits : c.cellBits = none) (hlen : c.maxLen = none)
    (hprogram : program ≠ []) :
    load c inputs program =
      .loaded { State.reset with config := c, mem := program, inq := deliverable c inputs } := by
  have hvalues : Memory.wf c.cellBits program = true := hbits ▸ Memory.wf_none program
  exact load_eq_loaded.mpr ⟨⟨hprogram, tooLong_of_maxLen_none hlen _, hvalues⟩, rfl⟩

/-- Settles O14: the empty program fails under any parameters, and without finite ones every other program loads over the reset
state, whose `ip`, run state and count `load` does not write. -/
theorem loadBuildsTheFreshState : Obligations.LoadBuildsTheFreshState := by
  intro c inputs program hbits hlen
  constructor
  · rintro rfl
    exact load_empty c inputs
  · intro hprogram
    exact ⟨_, load_of_unbounded hbits hlen hprogram, rfl, rfl, rfl, rfl⟩

end Sys2Proof.Machine

/-! SUPPORT. Opcode values as numbers: what the Decoder accepts is a kind's number, the digits of modes its roles allow, and any
surplus above them (30_encoding.md R51, R64, R66). -/

namespace Sys2Proof

/-- One mode per role, and a destination's is position; a source may be in either (40_decoder.md R74). -/
def rolesAllow : List Role → List Mode → Bool
  | [], [] => true
  | r :: rs, m :: ms => decide (r = .destination → m = .position) && rolesAllow rs ms
  | [], _ :: _ => false
  | _ :: _, [] => false

theorem rolesAllow_cons {r : Role} {rs : List Role} {m : Mode} {ms : List Mode} :
    rolesAllow (r :: rs) (m :: ms) = true ↔ (r = .destination → m = .position) ∧ rolesAllow rs ms = true := by
  rw [rolesAllow, Bool.and_eq_true, decide_eq_true_iff]

theorem rolesAllow_length {rs : List Role} {ms : List Mode} (h : rolesAllow rs ms = true) : ms.length = rs.length := by
  induction rs generalizing ms with
  | nil =>
    cases ms with
    | nil => rfl
    | cons m ms => cases h
  | cons r rs ih =>
    cases ms with
    | nil => cases h
    | cons m ms => rw [List.length_cons, List.length_cons, ih (rolesAllow_cons.mp h).2]

theorem Mode.digit_lt (m : Mode) : m.digit < 2 := by cases m <;> decide

theorem decodeModes_cons_eq_ok {v i : Nat} {r : Role} {rs : List Role} {ms : List Mode} :
    decodeModes v i (r :: rs) = .ok ms ↔
      ∃ m ms', decodeMode r (dig v (i + 2)) = .ok m ∧ decodeModes v (i + 1) rs = .ok ms' ∧ m :: ms' = ms := by
  rw [decodeModes]
  cases decodeMode r (dig v (i + 2)) with
  | error e => simp
  | ok m => cases decodeModes v (i + 1) rs <;> simp

/-- The accepted modes are those the roles allow whose digits, taken as a number, are the low digits of what stands at the
parameters' positions. -/
theorem decodeModes_eq_ok {v i : Nat} {rs : List Role} {ms : List Mode} :
    decodeModes v i rs = .ok ms ↔
      rolesAllow rs ms = true ∧ ∃ high, v / 10 ^ (i + 2) = modeDigits ms + high * 10 ^ ms.length := by
  induction rs generalizing i ms with
  | nil =>
    cases ms with
    | nil => exact iff_of_true rfl ⟨rfl, v / 10 ^ (i + 2), by simp [modeDigits]⟩
    | cons m ms => exact iff_of_false nofun nofun
  | cons r rs ih =>
    have hquotient : v / 10 ^ (i + 1 + 2) = v / 10 ^ (i + 2) / 10 := by rw [Nat.div_div_eq_div_mul]; rfl
    simp only [decodeModes_cons_eq_ok, decodeMode_eq_ok, ih, hquotient, dig]
    cases ms with
    | nil => exact iff_of_false nofun nofun
    | cons m ms =>
      have hlength : 10 ^ (m :: ms).length = 10 * 10 ^ ms.length := by rw [List.length_cons, Nat.pow_succ, Nat.mul_comm]
      have hdigit := m.digit_lt
      rw [rolesAllow_cons, modeDigits, hlength]
      simp only [Nat.mul_left_comm _ 10]
      constructor
      · rintro ⟨_, _, ⟨hlow, hrole⟩, ⟨hroles, high, hrest⟩, ⟨⟩⟩
        exact ⟨⟨hrole, hroles⟩, high, by omega⟩
      · rintro ⟨⟨hrole, hroles⟩, high, hvalue⟩
        exact ⟨m, ms, ⟨by omega, hrole⟩, ⟨hroles, high, by omega⟩, rfl⟩

/-- The opcode value of a decoded kind and its modes, without surplus digits (30_encoding.md R66). -/
def Decoded.opcode (d : Decoded) : Nat := d.kind.code + 100 * modeDigits d.modes

theorem decode_eq_decoded_iff_opcode {v : Int} {d : Decoded} :
    decode v = .decoded d ↔
      rolesAllow d.kind.roles d.modes = true ∧ ∃ high : Nat, v = d.opcode + high * 10 ^ (2 + d.modes.length) := by
  have hcode := d.kind.code_lt
  rw [decode_eq_decoded, decodeModes_eq_ok, Decoded.opcode]
  constructor
  · rintro ⟨hnonneg, hkind, hroles, high, hmodes⟩
    refine ⟨hroles, high, ?_⟩
    obtain ⟨n, rfl⟩ := Int.eq_ofNat_of_zero_le hnonneg
    norm_cast
    rw [Nat.pow_add, Nat.mul_left_comm]
    simp only [Int.toNat_natCast, Nat.zero_add, Nat.reducePow] at hkind hmodes ⊢
    omega
  · rintro ⟨hroles, high, rfl⟩
    norm_cast
    rw [Nat.pow_add, Nat.mul_left_comm]
    simp only [Nat.zero_add, Nat.reducePow]
    exact ⟨by omega, by omega, hroles, high, by omega⟩

/-- Every kind with every choice of modes that its roles allow: the rows of 30_encoding.md section 3. -/
def Decoded.table : List Decoded :=
  [⟨.add, [.position, .position, .position]⟩, ⟨.add, [.immediate, .position, .position]⟩,
    ⟨.add, [.position, .immediate, .position]⟩, ⟨.add, [.immediate, .immediate, .position]⟩,
    ⟨.multiply, [.position, .position, .position]⟩, ⟨.multiply, [.immediate, .position, .position]⟩,
    ⟨.multiply, [.position, .immediate, .position]⟩, ⟨.multiply, [.immediate, .immediate, .position]⟩,
    ⟨.input, [.position]⟩, ⟨.output, [.position]⟩, ⟨.output, [.immediate]⟩, ⟨.halt, []⟩]

theorem rolesAllow_iff_mem_table {d : Decoded} : rolesAllow d.kind.roles d.modes = true ↔ d ∈ Decoded.table := by
  constructor
  · intro h
    have hlength := rolesAllow_length h
    obtain ⟨k, ms⟩ := d
    cases k with
    | add | multiply =>
      match ms, hlength, h with
      | [m0, m1, m2], _, h =>
        cases m0 <;> cases m1 <;> cases m2 <;> revert h <;> decide
    | input | output =>
      obtain ⟨m0, rfl⟩ := List.length_eq_one_iff.mp hlength
      cases m0 <;> revert h <;> decide
    | halt =>
      obtain rfl := List.length_eq_zero_iff.mp hlength
      decide
  · have hrows : ∀ d ∈ Decoded.table, rolesAllow d.kind.roles d.modes = true := by decide
    exact hrows d

/-- Settles O5: the table's twelve values are the opcode values of the rows that the roles allow, each with the number of digits it
uses. -/
theorem legalOpcodeValuesAreExactlyThese : Obligations.LegalOpcodeValuesAreExactlyThese := by
  intro v
  have htable : [((1 : Int), 5), (101, 5), (1001, 5), (1101, 5), (2, 5), (102, 5), (1002, 5), (1102, 5), (3, 3), (4, 3), (104, 3),
      (99, 2)] = Decoded.table.map fun d => ((d.opcode : Int), 2 + d.modes.length) := by decide
  simp only [decode_eq_decoded_iff_opcode, rolesAllow_iff_mem_table, htable, List.mem_map]
  constructor
  · rintro ⟨d, hd, hvalue⟩
    exact ⟨_, ⟨d, hd, rfl⟩, hvalue⟩
  · rintro ⟨_, ⟨d, hd, rfl⟩, hvalue⟩
    exact ⟨d, hd, hvalue⟩

/-! Whole instructions. -/

theorem Instr.rolesAllow_modes (i : Instr) : rolesAllow i.kind.roles i.modes = true := by
  cases i <;> simp [Instr.kind, Instr.modes, Kind.roles, rolesAllow]

@[simp] theorem Instr.length_params (i : Instr) : i.params.length = i.kind.arity := by cases i <;> rfl

@[simp] theorem Instr.length_modes (i : Instr) : i.modes.length = i.kind.arity := by cases i <;> rfl

/-- An instruction is made again from its kind, its modes and its raw values. -/
@[simp] theorem Decoded.instr_kind_modes_params (i : Instr) : Decoded.instr ⟨i.kind, i.modes⟩ i.params = i := by
  cases i <;> rfl

/-- An opcode value selects the kind and modes of `i` exactly when it is the opcode value of `i`, up to surplus digits. -/
theorem decode_eq_decoded_instr {v : Int} {i : Instr} :
    decode v = .decoded ⟨i.kind, i.modes⟩ ↔ ∃ high : Nat, v = encodeOpcodeHigh i high := by
  have hwidth : 1 + i.width = 2 + i.modes.length := by rw [i.length_modes, Instr.width, Kind.width]; omega
  rw [decode_eq_decoded_iff_opcode, and_iff_right i.rolesAllow_modes]
  simp [encodeOpcodeHigh, encodeOpcode, Decoded.opcode, hwidth]

/-! The three readings of a list of cells. -/

theorem decodeCells_eq_decoded {cells rest : List Int} {i : Instr} :
    decodeCells cells = .decoded i rest ↔
      ∃ v, decode v = .decoded ⟨i.kind, i.modes⟩ ∧ cells = v :: i.params ++ rest := by
  constructor
  · cases cells with
    | nil => rintro ⟨⟩
    | cons v tail =>
      rw [decodeCells]
      cases hd : decode v with
      | rejected e => rintro ⟨⟩
      | decoded d =>
        dsimp only
        split
        · rintro ⟨⟩
        next hlen =>
          rintro ⟨⟩
          have hparams := Decoded.instr_params (d := d) (raw := tail.take d.arity) (by simp; omega)
          refine ⟨v, ?_, ?_⟩
          · rw [Decoded.instr_kind, Decoded.instr_modes hd, hd]
          · rw [hparams, List.cons_append, List.take_append_drop]
  · rintro ⟨v, hd, rfl⟩
    have harity : Decoded.arity ⟨i.kind, i.modes⟩ = i.params.length := i.length_params.symm
    simp [decodeCells, hd, harity, -Instr.length_params]

theorem decodeCells_eq_rejected {cells : List Int} {e : DecodeError} {v : Int} :
    decodeCells cells = .rejected e v ↔ cells.head? = some v ∧ decode v = .rejected e := by
  cases cells with
  | nil => simp [decodeCells]
  | cons w tail =>
    simp only [decodeCells, List.head?_cons, Option.some.injEq]
    cases hd : decode w with
    | rejected e' =>
      simp only [CellsResult.rejected.injEq]
      constructor
      · rintro ⟨rfl, rfl⟩; exact ⟨rfl, hd⟩
      · rintro ⟨rfl, hd'⟩; rw [hd] at hd'; exact ⟨DecodeResult.rejected.inj hd', rfl⟩
    | decoded d =>
      refine iff_of_false (by dsimp only; split <;> nofun) ?_
      rintro ⟨rfl, hd'⟩
      rw [hd] at hd'
      cases hd'

/-- The cell that is missing is the first past the end of the list. -/
theorem decodeCells_eq_missing {cells : List Int} {k : Nat} :
    decodeCells cells = .missing k ↔
      k = cells.length ∧
        (cells = [] ∨ ∃ v d, cells.head? = some v ∧ decode v = .decoded d ∧ cells.length < 1 + d.arity) := by
  cases cells with
  | nil => simp [decodeCells, eq_comm]
  | cons v tail =>
    simp only [decodeCells, reduceCtorEq, false_or, List.head?_cons, Option.some.injEq, List.length_cons]
    cases hd : decode v with
    | rejected e => simp [hd]
    | decoded d =>
      dsimp only
      split
      next hlen =>
        rw [CellsResult.missing.injEq]
        exact ⟨fun hk => ⟨by omega, v, d, rfl, hd, by omega⟩, fun hk => by omega⟩
      next hlen =>
        refine iff_of_false nofun ?_
        rintro ⟨-, _, d', rfl, hd', hlen'⟩
        obtain rfl := DecodeResult.decoded.inj (hd.symm.trans hd')
        omega

/-- Settles O6: the encoded opcode value selects the kind and modes of the instruction, whatever its surplus digits; without any it
is the case of 0. -/
theorem decodeEncodeAgree : Obligations.DecodeEncodeAgree := by
  have hread (i : Instr) (high : Nat) (rest : List Int) :
      decodeCells ((encodeOpcodeHigh i high : Int) :: i.params ++ rest) = .decoded i rest :=
    decodeCells_eq_decoded.mpr ⟨_, decode_eq_decoded_instr.mpr ⟨high, rfl⟩, rfl⟩
  intro i high rest
  have hplain := hread i 0 rest
  rw [encodeOpcodeHigh, Nat.zero_mul, Nat.add_zero] at hplain
  exact ⟨hplain, hread i high rest⟩

/-- Settles O7: cells that are read as an instruction begin with a value that selects its kind and modes. -/
theorem decodedCellsEncodeBack : Obligations.DecodedCellsEncodeBack := by
  intro cells rest i h
  obtain ⟨v, hd, rfl⟩ := decodeCells_eq_decoded.mp h
  obtain ⟨high, rfl⟩ := decode_eq_decoded_instr.mp hd
  exact ⟨high, rfl⟩

/-- Settles O4, from the Decoder's refusals on natural numbers, read on integers. -/
theorem decoderRefusesInOrder : Obligations.DecoderRefusesInOrder := by
  intro v e
  rw [decode_eq_rejected]
  refine or_congr Iff.rfl (or_congr (and_congr_right fun h => and_congr_left fun _ => ?_) (and_congr_right fun h => ?_))
  · have hcode (k : Kind) : v % 100 = k.code ↔ Kind.ofCode (v.toNat % 100) = some k := by
      rw [Kind.ofCode_eq_some]; omega
    simp only [ne_eq, hcode, Option.eq_none_iff_forall_ne_some]
  · have hcode (k : Kind) : v.toNat % 100 = k.code ↔ v % 100 = k.code := by omega
    simp only [hcode, decodeModes_eq_error, Nat.zero_add, ← dig_toNat h, exists_and_left]
    norm_cast

/-- Settles O8: the Decoder run on each of the ten words. -/
theorem wordsOfTheSpecDecode : Obligations.WordsOfTheSpecDecode := by
  unfold Obligations.WordsOfTheSpecDecode
  decide

end Sys2Proof

/-! SUPPORT. The fetch against the cells at `ip`, and the step that a fetch decides (42_step_loop.md R91 to R94). -/

namespace Sys2Proof.Machine

/-- Parameter cells that stand in Memory are fetched as they stand. -/
theorem fetchParams_of_drop {m : Memory} {a : Nat} {ps rest : List Int} (h : m.drop a = ps ++ rest) :
    fetchParams m a ps.length = .completes ps := by
  have hlen := congrArg List.length h
  rw [List.length_drop, List.length_append] at hlen
  exact fetchParams_eq_completes.mpr ⟨by omega, by rw [h, List.take_left]⟩

theorem fetch_of_decodeCells_decoded {m : Memory} {ip : Nat} {i : Instr} {rest : List Int}
    (h : decodeCells (m.drop ip) = .decoded i rest) : fetch m ip = .completes i := by
  obtain ⟨v, hd, hcells⟩ := decodeCells_eq_decoded.mp h
  have hopcode : m[ip]? = some v := by rw [← List.head?_drop, hcells]; rfl
  have hparams : fetchParams m (ip + 1) i.params.length = .completes i.params := by
    refine fetchParams_of_drop (rest := rest) ?_
    rw [← List.tail_drop, hcells]
    rfl
  rw [i.length_params] at hparams
  exact fetch_eq_completes.mpr ⟨v, _, _, hopcode, hd, hparams, (Decoded.instr_kind_modes_params i).symm⟩

theorem fetch_of_decodeCells_rejected {m : Memory} {ip : Nat} {e : DecodeError} {v : Int}
    (h : decodeCells (m.drop ip) = .rejected e v) : fetch m ip = .faults (.decodeError e v) := by
  obtain ⟨hopcode, hd⟩ := decodeCells_eq_rejected.mp h
  rw [List.head?_drop] at hopcode
  exact fetch_eq_faults.mpr (.inr (.inl ⟨v, e, hopcode, hd, rfl⟩))

theorem fetch_past_end {m : Memory} {ip : Nat} (h : m.length ≤ ip) :
    fetch m ip = .faults (.addressOutOfBounds (ip : Int)) :=
  fetch_eq_faults.mpr (.inl ⟨h, rfl⟩)

/-- The parameter cell at which Memory ends is the one reported. -/
theorem fetch_missing_param {m : Memory} {ip j : Nat} {v : Int} {d : Decoded} (hcell : m[ip]? = some v)
    (hd : decode v = .decoded d) (hj : j < d.arity) (hinside : ∀ k < j, ip + 1 + k < m.length)
    (hend : m.length ≤ ip + 1 + j) : fetch m ip = .faults (.addressOutOfBounds (ip + 1 + j : Nat)) :=
  fetch_eq_faults.mpr (.inr (.inr ⟨v, d, hcell, hd, fetchParams_eq_faults.mpr ⟨j, hj, hend, hinside, rfl⟩⟩))

theorem fetch_of_decodeCells_missing {m : Memory} {ip k : Nat} (h : decodeCells (m.drop ip) = .missing k) :
    fetch m ip = .faults (.addressOutOfBounds (ip + k : Nat)) := by
  obtain ⟨rfl, hempty | ⟨v, d, hopcode, hd, hshort⟩⟩ := decodeCells_eq_missing.mp h
  · rw [hempty]
    exact fetch_past_end (List.drop_eq_nil_iff.mp hempty)
  · rw [List.head?_drop] at hopcode
    obtain ⟨hlt, -⟩ := List.getElem?_eq_some_iff.mp hopcode
    rw [List.length_drop] at hshort ⊢
    have hend : ip + (m.length - ip) = ip + 1 + (m.length - (ip + 1)) := by omega
    rw [hend]
    exact fetch_missing_param hopcode hd (by omega) (by omega) (by omega)

/-- Settles O18, by the three readings of the cells at `ip`. -/
theorem fetchReadsTheCellsAtIp : Obligations.FetchReadsTheCellsAtIp := fun _ _ =>
  ⟨fun _ _ => fetch_of_decodeCells_decoded, fun _ _ => fetch_of_decodeCells_rejected, fun _ => fetch_of_decodeCells_missing⟩

/-! A step with the fetch known. -/

theorem exec_total (i : Instr) (s : State) : ∃ t, exec i s = .next t := by
  rw [exec_eq_settle]
  cases body i s <;> exact ⟨_, rfl⟩

theorem step_of_fetch_completes {s : State} {i : Instr} (hrun : s.rs = .running) (h : fetch s.mem s.ip = .completes i) :
    step s = exec i s := by
  obtain ⟨t, ht⟩ := exec_total i s
  have hloaded : s.mem ≠ [] := by
    obtain ⟨v, -, hcell, -⟩ := fetched_cells h
    rintro hnil
    simp [hnil] at hcell
  rw [ht, step_eq_next]
  exact ⟨hloaded, hrun, .inl ⟨i, h, ht⟩⟩

theorem step_of_fetch_faults {s : State} {r : Raise} (hrun : s.rs = .running) (hloaded : s.mem ≠ [])
    (h : fetch s.mem s.ip = .faults r) : step s = .next (takeFault r s) :=
  step_eq_next.mpr ⟨hloaded, hrun, .inr ⟨r, h, rfl⟩⟩

/-- A running machine with a program always has a next state. -/
theorem step_total {s : State} (hrun : s.rs = .running) (hloaded : s.mem ≠ []) : ∃ t, step s = .next t := by
  cases hf : fetch s.mem s.ip with
  | completes i => rw [step_of_fetch_completes hrun hf]; exact exec_total i s
  | faults r => exact ⟨_, step_of_fetch_faults hrun hloaded hf⟩
  | holds => exact absurd hf fetch_ne_holds

/-- Settles O17: the fetch gives what the cells decode to, and the step runs what was fetched. -/
theorem stepRunsTheDecodedInstruction : Obligations.StepRunsTheDecodedInstruction := fun _ _ _ hrun hcells =>
  step_of_fetch_completes hrun (fetch_of_decodeCells_decoded hcells)

/-- Settles O16: the reset state is given by its definition, and a step tests for an empty Memory first. -/
theorem noStepBeforeLoad : Obligations.NoStepBeforeLoad :=
  ⟨rfl, rfl, rfl, rfl, rfl, fun s hempty => by simp [step, loopStep, hempty]⟩

theorem progressOk_iff {s : State} :
    s.progressOk = true ↔
      s.ip ≤ s.mem.length ∧ s.icount ≤ s.ip ∧ s.ip ≤ 4 * s.icount ∧ s.outlog.length ≤ s.icount :=
  decide_eq_true_iff

/-- Settles O19: past the end the fetch faults with the pointer, and before it the cell exists. -/
theorem opcodeFetchFailsPastTheEnd : Obligations.OpcodeFetchFailsPastTheEnd := by
  intro s hrun hloaded
  refine ⟨fun hend => ⟨step_of_fetch_faults hrun hloaded (fetch_past_end hend), fun hprogress => ?_⟩, fun hlt => ?_⟩
  · obtain ⟨hip, -⟩ := progressOk_iff.mp hprogress
    omega
  · have hcell : s.mem[s.ip]? = some s.mem[s.ip] := List.getElem?_eq_getElem hlt
    exact ⟨_, memRead_nat.mpr hcell, hcell⟩

/-- Settles O21: the fetch reports the first parameter cell past the end, and completes where there is none. -/
theorem parameterFetchIsBoundsChecked : Obligations.ParameterFetchIsBoundsChecked := by
  intro s v d hrun hcell hd
  obtain ⟨hlt, -⟩ := List.getElem?_eq_some_iff.mp hcell
  have hwidth : d.width = 1 + d.arity := rfl
  refine ⟨fun j hj hinside hend => ?_, ⟨?_, fun hshort => ?_⟩, fun hfits => ?_⟩
  · exact step_of_fetch_faults hrun (List.ne_nil_of_length_pos (by omega)) (fetch_missing_param hcell hd hj hinside hend)
  · rintro ⟨j, hj, hend⟩
    omega
  · exact ⟨d.arity - 1, by omega, by omega⟩
  · have hparams : fetchParams s.mem (s.ip + 1) d.arity = .completes ((s.mem.drop (s.ip + 1)).take d.arity) :=
      fetchParams_eq_completes.mpr ⟨by omega, rfl⟩
    refine ⟨_, fetch_eq_completes.mpr ⟨v, d, _, hcell, hd, hparams, rfl⟩, Decoded.instr_kind d _, Decoded.instr_params ?_⟩
    rw [List.length_take, List.length_drop]
    omega

/-! An ended machine. -/

theorem step_ne_next_of_ended {s : State} (h : s.rs ≠ .running) (t : State) : step s ≠ .next t := fun hstep =>
  h (step_eq_next.mp hstep).2.1

theorem run_of_ended {s : State} (h : s.rs ≠ .running) (n : Nat) : run n s = .next s := by
  cases n with
  | zero => rfl
  | succ n =>
    rw [run]
    cases hrs : s.rs with
    | running => exact absurd hrs h
    | halted | faulted => rfl

/-- Settles O22: the step tests the run state before the fetch, and the run before the step. -/
theorem endedMachineTakesNoStep : Obligations.EndedMachineTakesNoStep := by
  intro s
  refine ⟨fun hloaded hrs => ?_, fun hloaded hrs => ?_, run_of_ended⟩
  · simp [step, loopStep, hloaded, hrs]
  · simp [step, loopStep, hloaded, hrs]

/-! Values fetched from a Memory in range. -/

theorem wellFormed_iff {b : Option Nat} {i : Instr} :
    i.wellFormed b = true ↔ ∀ p ∈ i.params, cellInRange b p = true :=
  List.all_eq_true

theorem fetch_wellFormed {b : Option Nat} {m : Memory} {ip : Nat} {i : Instr} (hm : Memory.wf b m = true)
    (h : fetch m ip = .completes i) : i.wellFormed b = true := by
  refine wellFormed_iff.mpr fun p hp => ?_
  obtain ⟨j, hj⟩ := List.mem_iff_getElem?.mp hp
  exact wf_memRead hm (fetch_param_cell h hj)

/-- Settles O48: every raw value of a fetched instruction is a cell of Memory. -/
theorem fetchedInstructionsAreWellFormed : Obligations.FetchedInstructionsAreWellFormed := fun _ _ _ _ => fetch_wellFormed

/-! Reads after a store. -/

theorem memRead_set_same {m : Memory} {a v : Int} (h0 : 0 ≤ a) (hl : a < m.length) :
    memRead (m.set a.toNat v) a = .completes v :=
  memRead_eq_completes.mpr ⟨h0, List.getElem?_set_self (by omega)⟩

theorem memRead_set_ne {m : Memory} {a b v : Int} (h0 : 0 ≤ a) (hne : b ≠ a) :
    memRead (m.set a.toNat v) b = memRead m b := by
  unfold memRead
  split
  · rfl
  · rw [List.getElem?_set_ne (by omega)]

/-- Settles O11: outside Memory the address check fails, inside it the store is a list update at that address. -/
theorem memWriteStoresOneCell : Obligations.MemWriteStoresOneCell := by
  intro s a v
  refine ⟨fun hout => memWrite_eq_faults.mpr ⟨rfl, hout⟩, fun h0 hl => ?_⟩
  refine ⟨s.store a v, memWrite_eq_completes.mpr ⟨rfl, h0, hl⟩, rfl, ?_, memRead_set_same h0 hl, fun b => memRead_set_ne h0⟩
  rw [store_mem, List.length_set]

end Sys2Proof.Machine

/-! SUPPORT. The invariants, each as what it says and kept by every step (Safety.lean). -/

namespace Sys2Proof.Machine

/-! Values in the range of a cell. -/

theorem valuesOk_iff {s : State} :
    s.valuesOk = true ↔
      s.config.valid = true ∧ tooLong s.config s.mem.length = false ∧ Memory.wf s.config.cellBits s.mem = true ∧
        (∀ v ∈ s.inq, cellInRange s.config.cellBits v = true) ∧ ∀ v ∈ s.outlog, cellInRange s.config.cellBits v = true := by
  simp only [State.valuesOk, Bool.and_eq_true, Bool.not_eq_true', List.all_eq_true, and_assoc]

@[simp] theorem valuesOk_advance (s : State) (w : Nat) : (s.advance w).valuesOk = s.valuesOk := rfl

@[simp] theorem valuesOk_stop (s : State) : s.stop.valuesOk = s.valuesOk := rfl

@[simp] theorem valuesOk_takeFault (r : Raise) (s : State) : (takeFault r s).valuesOk = s.valuesOk := rfl

theorem valuesOk_store {s : State} {a v : Int} (hs : s.valuesOk = true) (hv : cellInRange s.config.cellBits v = true) :
    (s.store a v).valuesOk = true := by
  obtain ⟨hvalid, hlen, hmem, hinq, hout⟩ := valuesOk_iff.mp hs
  refine valuesOk_iff.mpr ⟨hvalid, ?_, wf_set _ hmem hv, hinq, hout⟩
  simpa using hlen

theorem valuesOk_consume {s : State} {x : Int} {rest : List Int} (hs : s.valuesOk = true) (hinq : s.inq = x :: rest) :
    (s.consume rest).valuesOk = true := by
  obtain ⟨hvalid, hlen, hmem, hrange, hout⟩ := valuesOk_iff.mp hs
  exact valuesOk_iff.mpr ⟨hvalid, hlen, hmem, fun v hv => hrange v (hinq ▸ List.mem_cons_of_mem x hv), hout⟩

theorem valuesOk_emit {s : State} {v : Int} (hs : s.valuesOk = true) (hv : cellInRange s.config.cellBits v = true) :
    (s.emit v).valuesOk = true := by
  obtain ⟨hvalid, hlen, hmem, hinq, hout⟩ := valuesOk_iff.mp hs
  refine valuesOk_iff.mpr ⟨hvalid, hlen, hmem, hinq, fun w hw => ?_⟩
  obtain hw | hw := List.mem_append.mp hw
  · exact hout w hw
  · obtain rfl := List.mem_singleton.mp hw
    exact hv

theorem wf_readOperand {b : Option Nat} {m : Memory} {p v : Int} {md : Mode} (hm : Memory.wf b m = true)
    (hp : cellInRange b p = true) (h : readOperand m p md = .completes v) : cellInRange b v = true := by
  cases md with
  | position => exact wf_memRead hm h
  | immediate => exact Attempt.completes.inj h ▸ hp

/-- A body stores only results in range, delivers only inputs in range, and emits a cell or a raw value. -/
theorem body_completes_valuesOk {i : Instr} {s u : State} (hs : s.valuesOk = true)
    (hi : i.wellFormed s.config.cellBits = true) (h : body i s = .completes u) : u.valuesOk = true := by
  obtain ⟨-, -, hmem, -⟩ := valuesOk_iff.mp hs
  cases i with
  | add | multiply =>
    obtain ⟨a, b, -, -, -, hv, rfl⟩ := arithBody_eq_completes.mp h
    exact valuesOk_store hs hv
  | input p0 =>
    obtain ⟨-, x, rest, hinq, hx, rfl⟩ := inputBody_eq_completes.mp h
    exact valuesOk_store (valuesOk_consume hs hinq) hx
  | output m0 p0 =>
    obtain ⟨v, hv, rfl⟩ := outputBody_eq_completes.mp h
    exact valuesOk_emit hs (wf_readOperand hmem (wellFormed_iff.mp hi p0 (List.mem_singleton.mpr rfl)) hv)
  | halt => cases h; exact (valuesOk_stop s).trans hs

/-- Settles O43: only a completed body writes values, and its instruction was fetched from a Memory in range. -/
theorem valuesStayInRange : Obligations.ValuesStayInRange := by
  intro s t hs h
  obtain ⟨-, -, hmem, -⟩ := valuesOk_iff.mp hs
  obtain ⟨-, -, hend⟩ := step_cases h
  rcases hend with ⟨i, u, hfetch, hbody, rfl⟩ | ⟨_, r, -, -, rfl⟩ | ⟨r, -, rfl⟩ | ⟨_, -, -, -, rfl⟩
  · rw [valuesOk_advance]
    exact body_completes_valuesOk hs (fetch_wellFormed hmem hfetch) hbody
  · exact (valuesOk_takeFault r s).trans hs
  · exact (valuesOk_takeFault r s).trans hs
  · exact hs

/-! Progress. -/

theorem width_bounds (i : Instr) : 1 ≤ i.width ∧ i.width ≤ 4 := by
  rw [Instr.width]
  cases i.kind <;> decide

/-- Settles O44: a completed instruction lies inside Memory, is 1 to 4 cells wide, and emits at most one value; every other end of a
step leaves what is measured alone. -/
theorem progressStaysBounded : Obligations.ProgressStaysBounded := by
  intro s t hs h
  obtain ⟨-, -, hend⟩ := step_cases h
  rcases hend with ⟨i, u, hfetch, hbody, rfl⟩ | ⟨_, r, -, -, rfl⟩ | ⟨r, -, rfl⟩ | ⟨_, -, -, -, rfl⟩
  · obtain ⟨-, -, -, -, -, -, -, hinside⟩ := fetched_cells hfetch
    obtain ⟨⟨hip, hcount, -, hlen⟩, -⟩ := body_completes_frame hbody
    obtain ⟨xs, ys, -, hout, hevents⟩ := body_completes_io hbody
    have hwidth := width_bounds i
    rw [progressOk_iff] at hs ⊢
    simp only [advance_ip, advance_mem, advance_icount, advance_outlog, hip, hcount, hlen, hout, List.length_append]
    omega
  · exact hs
  · exact hs
  · exact hs

/-! Legal ends. -/

/-- A fault of the fetch or of a body, recorded in the state where it was raised, is one that the state bears out. -/
def Raise.BorneOut (r : Raise) (s : State) : Prop :=
  match r with
  | .decodeError e v => s.mem[s.ip]? = some v ∧ decode v = .rejected e
  | .addressOutOfBounds a => a < 0 ∨ (s.mem.length : Int) ≤ a
  | .inputExhausted => s.config.inputPolicy = .queue
  | .overflow => s.config.cellBits ≠ none

theorem fetch_faults_borneOut {s : State} {r : Raise} (h : fetch s.mem s.ip = .faults r) : r.BorneOut s := by
  obtain ⟨a, rfl, ha⟩ | ⟨v, e, hcell, hd, rfl⟩ := fetch_faults_kind h
  · exact .inr ha
  · exact ⟨hcell, hd⟩

theorem body_faults_borneOut {i : Instr} {s : State} {r : Raise} (h : body i s = .faults r) : r.BorneOut s := by
  obtain ⟨a, rfl, ha⟩ | ⟨rfl, hpolicy, -⟩ | ⟨rfl, hbits⟩ := body_faults_kind h
  · exact ha
  · exact hpolicy
  · exact hbits

theorem endOk_of_faulted {s : State} (hrs : s.rs = .faulted) (hfip : s.fip = s.ip) : s.endOk = s.recordLegal := by
  simp [State.endOk, hrs, hfip]

theorem endOk_takeFault {s : State} {r : Raise} (h : r.BorneOut s) : (takeFault r s).endOk = true := by
  rw [endOk_of_faulted rfl rfl]
  cases r with
  | decodeError e v =>
    obtain ⟨hcell, hd⟩ := h
    simp [State.recordLegal, Raise.cause, Raise.info, Raise.sub, hcell, hd]
  | addressOutOfBounds => exact decide_eq_true h
  | inputExhausted | overflow => exact decide_eq_true ⟨h, rfl⟩

theorem endOk_of_running {s : State} (h : s.rs = .running) : s.endOk = true := by simp [State.endOk, h]

/-- After a fetched `halt` the cell before `ip` holds it: `halt` stores nothing and advances by 1 (D9). -/
theorem endOk_after_halt {s : State} (h : fetch s.mem s.ip = .completes .halt) : (s.stop.advance 1).endOk = true := by
  obtain ⟨v, hread, hd⟩ := fetch_opcode_cell h
  have hd : decode v = .decoded ⟨.halt, []⟩ := hd
  simp [State.endOk, State.lastWasHalt, memRead_nat.mp hread, hd]

/-- Settles O45: a completed `halt` leaves itself before `ip`, any other completed instruction and a hold leave `Running`, and a fault
records what the state bears out. -/
theorem everyStepLeavesALegalEnd : Obligations.EveryStepLeavesALegalEnd := by
  intro s t h
  obtain ⟨-, hrun, hend⟩ := step_cases h
  rcases hend with ⟨i, u, hfetch, hbody, rfl⟩ | ⟨i, r, -, hbody, rfl⟩ | ⟨r, hfetch, rfl⟩ | ⟨_, -, -, -, rfl⟩
  · by_cases hi : i = .halt
    · subst hi
      cases hbody
      exact endOk_after_halt hfetch
    · exact endOk_of_running (by rw [advance_rs, body_completes_rs hbody, if_neg hi, hrun])
  · exact endOk_takeFault (body_faults_borneOut hbody)
  · exact endOk_takeFault (fetch_faults_borneOut hfetch)
  · exact endOk_of_running hrun

/-! Where a run begins. -/

theorem inv_iff {s : State} : s.inv = true ↔ s.valuesOk = true ∧ s.progressOk = true ∧ s.endOk = true := by
  simp only [State.inv, Bool.and_eq_true, and_assoc]

theorem deliverable_subset_range {c : Config} {vs : List Int} : ∀ v ∈ deliverable c vs, cellInRange c.cellBits v = true :=
  List.all_eq_true.mp (deliverable_inRange c vs)

/-- Settles O47: the three checks of `load` and the boundary's filter give the values; the run is at its beginning. -/
theorem loadMeetsTheInvariants : Obligations.LoadMeetsTheInvariants := by
  intro c inputs program s hvalid hload
  obtain ⟨⟨hprogram, hlength, hmem⟩, rfl⟩ := load_eq_loaded.mp hload
  refine ⟨inv_iff.mpr ⟨valuesOk_iff.mpr ?_, progressOk_iff.mpr (by simp [State.reset]), endOk_of_running rfl⟩, hprogram⟩
  exact ⟨hvalid, hlength, hmem, deliverable_subset_range, nofun⟩

/-- Settles O46, by evaluating the three invariants on the one state. -/
theorem resetMeetsTheInvariants : Obligations.ResetMeetsTheInvariants := by
  unfold Obligations.ResetMeetsTheInvariants
  decide

end Sys2Proof.Machine

/-! SUPPORT. The next state of each instruction, case by case, with `add` and `multiply` as one (43_arithmetic.md, 44_io.md,
45_halt.md). -/

namespace Sys2Proof.Machine

theorem exec_of_completes {i : Instr} {s u : State} (h : body i s = .completes u) :
    exec i s = .next (u.advance i.width) :=
  exec_eq_next.mpr (.inl ⟨u, h, rfl⟩)

theorem exec_of_faults {i : Instr} {s : State} {r : Raise} (h : body i s = .faults r) : exec i s = .next (takeFault r s) :=
  exec_eq_next.mpr (.inr (.inl ⟨r, h, rfl⟩))

theorem exec_of_holds {i : Instr} {s : State} (h : body i s = .holds) : exec i s = .next s :=
  exec_eq_next.mpr (.inr (.inr ⟨h, rfl⟩))

/-- The arithmetic instruction of an operation of the ALU. -/
def arithInstr (op : AluOp) (m0 m1 : Mode) (p0 p1 p2 : Int) : Instr :=
  match op with
  | .sum => .add m0 m1 p0 p1 p2
  | .product => .multiply m0 m1 p0 p1 p2

theorem body_arithInstr (op : AluOp) (m0 m1 : Mode) (p0 p1 p2 : Int) (s : State) :
    body (arithInstr op m0 m1 p0 p1 p2) s = arithBody op m0 m1 p0 p1 p2 s := by
  cases op <;> rfl

theorem width_arithInstr (op : AluOp) (m0 m1 : Mode) (p0 p1 p2 : Int) : (arithInstr op m0 m1 p0 p1 p2).width = 4 := by
  cases op <;> rfl

theorem exists_arithInstr {i : Instr} {m0 m1 : Mode} {p0 p1 p2 : Int}
    (h : i = .add m0 m1 p0 p1 p2 ∨ i = .multiply m0 m1 p0 p1 p2) : ∃ op, i = arithInstr op m0 m1 p0 p1 p2 := by
  obtain rfl | rfl := h
  · exact ⟨.sum, rfl⟩
  · exact ⟨.product, rfl⟩

/-- `add` and `multiply` store the exact result where the operands resolve and the result fits. -/
theorem exec_arith_stores (op : AluOp) {s : State} {m0 m1 : Mode} {p0 p1 p2 a b : Int}
    (ha : readOperand s.mem p0 m0 = .completes a) (hb : readOperand s.mem p1 m1 = .completes b)
    (h0 : 0 ≤ p2) (hl : p2 < s.mem.length) (hv : cellInRange s.config.cellBits (alu op a b) = true) :
    exec (arithInstr op m0 m1 p0 p1 p2) s = .next ((s.store p2 (alu op a b)).advance 4) := by
  have hbody : body (arithInstr op m0 m1 p0 p1 p2) s = .completes (s.store p2 (alu op a b)) := by
    rw [body_arithInstr]
    exact arithBody_eq_completes.mpr ⟨a, b, ha, hb, ⟨h0, hl⟩, hv, rfl⟩
  rw [exec_of_completes hbody, width_arithInstr]

/-- Settles O25: the sum, by the rule for both operations. -/
theorem addStoresTheSum : Obligations.AddStoresTheSum := fun _ _ _ _ _ _ _ _ => exec_arith_stores .sum

/-- Settles O26: the product, by the rule for both operations. -/
theorem multiplyStoresTheProduct : Obligations.MultiplyStoresTheProduct := fun _ _ _ _ _ _ _ _ => exec_arith_stores .product

theorem exec_input_stores {s : State} {p0 x : Int} {rest : List Int} (hinq : s.inq = x :: rest)
    (hx : cellInRange s.config.cellBits x = true) (h0 : 0 ≤ p0) (hl : p0 < s.mem.length) :
    exec (.input p0) s = .next (((s.consume rest).store p0 x).advance 2) :=
  exec_of_completes (inputBody_eq_completes.mpr ⟨⟨h0, hl⟩, x, rest, hinq, hx, rfl⟩)

/-- Settles O27: the boundary delivers the value, and it is stored. -/
theorem inputStoresTheNextValue : Obligations.InputStoresTheNextValue := fun _ _ _ _ => exec_input_stores

theorem exec_output_emits {s : State} {m0 : Mode} {p0 a : Int} (h : readOperand s.mem p0 m0 = .completes a) :
    exec (.output m0 p0) s = .next ((s.emit a).advance 2) :=
  exec_of_completes (outputBody_eq_completes.mpr ⟨a, h, rfl⟩)

/-- Settles O28: the operand resolves, and the emission always succeeds. -/
theorem outputEmitsTheOperand : Obligations.OutputEmitsTheOperand := fun _ _ _ _ => exec_output_emits

theorem exec_halt (s : State) : exec .halt s = .next (s.stop.advance 1) := rfl

/-- Settles O29: `halt` has no check that could fail. -/
theorem haltHaltsTheRun : Obligations.HaltHaltsTheRun := exec_halt

/-! Faults of the instructions. -/

/-- A source faults for its own address, in position mode and outside Memory, or it has a value. -/
theorem readOperand_cases (m : Memory) (p : Int) (md : Mode) :
    (md = .position ∧ (p < 0 ∨ (m.length : Int) ≤ p) ∧ readOperand m p md = .faults (.addressOutOfBounds p)) ∨
      ((md = .immediate ∨ (0 ≤ p ∧ p < m.length)) ∧ ∃ v, readOperand m p md = .completes v) := by
  cases md with
  | immediate => exact .inr ⟨.inl rfl, p, rfl⟩
  | position =>
    by_cases hout : p < 0 ∨ (m.length : Int) ≤ p
    · exact .inl ⟨rfl, hout, readOperand_position_outside hout⟩
    · have hinside : 0 ≤ p ∧ p < m.length := by omega
      obtain ⟨v, hcell, -⟩ := memRead_inside hinside.1 hinside.2
      exact .inr ⟨.inr hinside, v, readOperand_position_inside hinside.1 hcell⟩

/-- Settles O32, by the two answers of the operand. -/
theorem outputFaultsOnlyOutOfBounds : Obligations.OutputFaultsOnlyOutOfBounds := by
  intro s m0 p0
  obtain ⟨hmode, hout, hread⟩ | ⟨hinside, v, hread⟩ := readOperand_cases s.mem p0 m0
  · exact .inl ⟨hmode, hout, exec_of_faults (outputBody_eq_faults.mpr hread)⟩
  · exact .inr ⟨hinside, _, exec_output_emits hread, rfl, rfl⟩

theorem exec_input_outside {s : State} {p0 : Int} (h : p0 < 0 ∨ (s.mem.length : Int) ≤ p0) :
    exec (.input p0) s = .next (takeFault (.addressOutOfBounds p0) s) :=
  exec_of_faults (inputBody_eq_faults.mpr (.inl ⟨rfl, h⟩))

theorem exec_input_exhausted {s : State} {p0 : Int} (h0 : 0 ≤ p0) (hl : p0 < s.mem.length) (hnone : s.nextInput = none)
    (hpolicy : s.config.inputPolicy = .queue) : exec (.input p0) s = .next (takeFault .inputExhausted s) :=
  exec_of_faults (inputBody_eq_faults.mpr (.inr ⟨⟨h0, hl⟩, rfl, hnone, hpolicy⟩))

theorem exec_input_holds {s : State} {p0 : Int} (h0 : 0 ≤ p0) (hl : p0 < s.mem.length) (hnone : s.nextInput = none)
    (hpolicy : s.config.inputPolicy = .blocking) : exec (.input p0) s = .next s :=
  exec_of_holds (inputBody_eq_holds.mpr ⟨⟨h0, hl⟩, hnone, hpolicy⟩)

/-- Settles O31: the address check comes before the boundary is asked. -/
theorem exhaustedInputFaultsAfterTheAddressCheck : Obligations.ExhaustedInputFaultsAfterTheAddressCheck := by
  refine fun s p0 => ⟨fun h0 hl hempty hpolicy => ?_, exec_input_outside⟩
  exact ⟨_, exec_input_exhausted h0 hl (nextInput_empty hempty) hpolicy, rfl, rfl, rfl, rfl, rfl⟩

theorem cellInRange_eq_false {b : Option Nat} {v : Int} :
    cellInRange b v = false ↔ ∃ n, b = some n ∧ (v < -(2 ^ (n - 1)) ∨ 2 ^ (n - 1) ≤ v) := by
  cases b with
  | none => simp [cellInRange]
  | some n =>
    simp only [cellInRange, decide_eq_false_iff_not, Option.some.injEq, exists_eq_left']
    omega

/-- Settles O30: the four tests of the body in their order; without `CELL_BITS` the last cannot fail, and the count tells the
completed state from a fault. -/
theorem arithmeticFaultsInOrder : Obligations.ArithmeticFaultsInOrder := by
  intro s m0 m1 p0 p1 p2 i f hi
  obtain ⟨op, rfl, rfl⟩ : ∃ op, i = arithInstr op m0 m1 p0 p1 p2 ∧ f = alu op := by
    obtain ⟨rfl, rfl⟩ | ⟨rfl, rfl⟩ := hi
    · exact ⟨.sum, rfl, rfl⟩
    · exact ⟨.product, rfl, rfl⟩
  have hfault {r : Raise} (h : arithBody op m0 m1 p0 p1 p2 s = .faults r) :
      exec (arithInstr op m0 m1 p0 p1 p2) s = .next (takeFault r s) :=
    exec_of_faults ((body_arithInstr op m0 m1 p0 p1 p2 s).trans h)
  refine ⟨?_, fun a ha => ⟨?_, fun b hb => ⟨fun hout => ?_, fun h0 hl => ⟨fun n hn hrange => ?_, fun hnone heq => ?_⟩⟩⟩⟩
  · rintro rfl hout
    exact hfault (arithBody_eq_faults.mpr (.inl (readOperand_position_outside hout)))
  · rintro rfl hout
    exact hfault (arithBody_eq_faults.mpr (.inr ⟨a, ha, .inl (readOperand_position_outside hout)⟩))
  · exact hfault (arithBody_eq_faults.mpr (.inr ⟨a, ha, .inr ⟨b, hb, .inl ⟨rfl, hout⟩⟩⟩))
  · have hrange : cellInRange s.config.cellBits (alu op a b) = false := cellInRange_eq_false.mpr ⟨n, hn, hrange⟩
    exact hfault (arithBody_eq_faults.mpr (.inr ⟨a, ha, .inr ⟨b, hb, .inr ⟨⟨h0, hl⟩, rfl, hrange⟩⟩⟩))
  · have hfits : cellInRange s.config.cellBits (alu op a b) = true := by rw [hnone]; rfl
    rw [exec_arith_stores op ha hb h0 hl hfits] at heq
    have hcount : s.icount + 1 = s.icount := congrArg State.icount (Host.Outcome.next.inj heq)
    omega

/-! Addresses outside Memory. -/

/-- A source address outside Memory is reported by the read of that source. -/
theorem readOperand_of_sourceAddress {m : Memory} {md : Mode} {p a : Int} (ha : a ∈ addressesOf.sourceAddress md p)
    (hout : a < 0 ∨ (m.length : Int) ≤ a) : readOperand m p md = .faults (.addressOutOfBounds p) := by
  cases md with
  | immediate => cases ha
  | position =>
    obtain rfl := List.mem_singleton.mp ha
    exact readOperand_position_outside hout

theorem mem_sourceAddress_of_faults {m : Memory} {md : Mode} {p : Int} {r : Raise} (h : readOperand m p md = .faults r) :
    p ∈ addressesOf.sourceAddress md p ∧ (p < 0 ∨ (m.length : Int) ≤ p) := by
  obtain ⟨rfl, -, hout⟩ := readOperand_eq_faults.mp h
  exact ⟨List.mem_singleton.mpr rfl, hout⟩

theorem mem_addressesOf_arithInstr {op : AluOp} {m0 m1 : Mode} {p0 p1 p2 a : Int} :
    a ∈ addressesOf (arithInstr op m0 m1 p0 p1 p2) ↔
      a ∈ addressesOf.sourceAddress m0 p0 ∨ a ∈ addressesOf.sourceAddress m1 p1 ∨ a = p2 := by
  cases op <;> simp [arithInstr, addressesOf]

theorem arithInstr_faults_outside {op : AluOp} {m0 m1 : Mode} {p0 p1 p2 a : Int} {s : State}
    (ha : a ∈ addressesOf (arithInstr op m0 m1 p0 p1 p2)) (hout : a < 0 ∨ (s.mem.length : Int) ≤ a) :
    ∃ b ∈ addressesOf (arithInstr op m0 m1 p0 p1 p2), (b < 0 ∨ (s.mem.length : Int) ≤ b) ∧
      body (arithInstr op m0 m1 p0 p1 p2) s = .faults (.addressOutOfBounds b) := by
  rw [mem_addressesOf_arithInstr] at ha
  simp only [mem_addressesOf_arithInstr, body_arithInstr, arithBody_eq_faults]
  obtain ⟨rfl, hout0, hread0⟩ | ⟨-, v0, hread0⟩ := readOperand_cases s.mem p0 m0
  · exact ⟨p0, .inl (List.mem_singleton.mpr rfl), hout0, .inl hread0⟩
  obtain ⟨rfl, hout1, hread1⟩ | ⟨-, v1, hread1⟩ := readOperand_cases s.mem p1 m1
  · exact ⟨p1, .inr (.inl (List.mem_singleton.mpr rfl)), hout1, .inr ⟨v0, hread0, .inl hread1⟩⟩
  obtain ha | ha | rfl := ha
  · simp [readOperand_of_sourceAddress ha hout] at hread0
  · simp [readOperand_of_sourceAddress ha hout] at hread1
  · exact ⟨a, .inr (.inr rfl), hout, .inr ⟨v0, hread0, .inr ⟨v1, hread1, .inl ⟨rfl, hout⟩⟩⟩⟩

/-- An instruction that has an address outside Memory faults with one. -/
theorem body_faults_outside {i : Instr} {s : State} {a : Int} (ha : a ∈ addressesOf i)
    (hout : a < 0 ∨ (s.mem.length : Int) ≤ a) :
    ∃ b ∈ addressesOf i, (b < 0 ∨ (s.mem.length : Int) ≤ b) ∧ body i s = .faults (.addressOutOfBounds b) := by
  cases i with
  | add => exact arithInstr_faults_outside (op := .sum) ha hout
  | multiply => exact arithInstr_faults_outside (op := .product) ha hout
  | input p0 =>
    obtain rfl := List.mem_singleton.mp ha
    exact ⟨a, ha, hout, inputBody_eq_faults.mpr (.inl ⟨rfl, hout⟩)⟩
  | output m0 p0 =>
    have hread := readOperand_of_sourceAddress ha hout
    obtain ⟨hmem, hout0⟩ := mem_sourceAddress_of_faults hread
    exact ⟨p0, hmem, hout0, outputBody_eq_faults.mpr hread⟩
  | halt => cases ha

/-- Settles O13: the instruction faults with an address of its own, and a faulted machine takes no step. -/
theorem outOfBoundsEndsTheRun : Obligations.OutOfBoundsEndsTheRun := by
  intro s i a ha hout
  obtain ⟨b, hb, houtb, hbody⟩ := body_faults_outside ha hout
  exact ⟨_, exec_of_faults hbody, rfl, rfl, hb, houtb, rfl, step_ne_next_of_ended nofun⟩

/-! Frames. -/

/-- Memory as it was, or with one store at an address inside it: every other address, and where `writeAddress` answers none every
address, reads as before. -/
theorem reads_kept {m m' : Memory} {p : Int} (h : m' = m ∨ (0 ≤ p ∧ p < m.length) ∧ ∃ v, m' = m.set p.toNat v) :
    (∀ d, writeAddress m p = .completes d → ∀ a, a ≠ d → memRead m' a = memRead m a) ∧
      ∀ r, writeAddress m p = .faults r → ∀ a, memRead m' a = memRead m a := by
  obtain rfl | ⟨hinside, v, rfl⟩ := h
  · exact ⟨fun _ _ _ _ => rfl, fun _ _ _ => rfl⟩
  · rw [writeAddress_inside hinside.1 hinside.2]
    refine ⟨?_, nofun⟩
    rintro _ ⟨⟩ a hne
    exact memRead_set_ne hinside.1 hne

/-- Settles O34: the completed instruction is one store and the advance; a fault writes the run state and the record only. -/
theorem arithmeticFrame : Obligations.ArithmeticFrame := by
  intro s t m0 m1 p0 p1 p2 i hi h
  obtain ⟨op, rfl⟩ := exists_arithInstr hi
  obtain ⟨u, hbody, rfl⟩ | ⟨r, -, rfl⟩ | ⟨hbody, -⟩ := exec_eq_next.mp h
  · rw [body_arithInstr] at hbody
    obtain ⟨a, b, -, -, hinside, -, rfl⟩ := arithBody_eq_completes.mp hbody
    exact ⟨rfl, rfl, rfl, List.length_set, .inl ⟨rfl, rfl, rfl, rfl, rfl⟩, reads_kept (.inr ⟨hinside, _, rfl⟩)⟩
  · exact ⟨rfl, rfl, rfl, rfl, .inr ⟨rfl, rfl, rfl, rfl⟩, reads_kept (.inl rfl)⟩
  · rw [body_arithInstr] at hbody
    exact absurd hbody arithBody_ne_holds

/-- Settles O35: the completed `input` takes the first value and stores it; a fault and a hold take nothing and store nothing. -/
theorem inputFrame : Obligations.InputFrame := by
  intro s t p0 h
  obtain ⟨u, hbody, rfl⟩ | ⟨r, -, rfl⟩ | ⟨-, rfl⟩ := exec_eq_next.mp h
  · obtain ⟨hinside, x, rest, hinq, -, rfl⟩ := inputBody_eq_completes.mp hbody
    refine ⟨rfl, rfl, List.length_set, .inr ⟨x, hinq⟩, fun hsame => ?_, .inl ⟨rfl, rfl, rfl, rfl, rfl⟩,
      reads_kept (.inr ⟨hinside, _, rfl⟩)⟩
    exact absurd (hsame.trans hinq) (List.cons_ne_self x rest).symm
  · exact ⟨rfl, rfl, rfl, .inl rfl, fun _ => rfl, .inr ⟨rfl, rfl, rfl, rfl, rfl⟩, reads_kept (.inl rfl)⟩
  · exact ⟨rfl, rfl, rfl, .inl rfl, fun _ => rfl, .inl ⟨rfl, rfl, rfl, rfl, rfl⟩, reads_kept (.inl rfl)⟩

/-- Settles O36: `output` appends its operand or faults, `halt` writes the run state; neither stores. -/
theorem outputAndHaltFrame : Obligations.OutputAndHaltFrame := by
  rintro s t i (⟨m0, p0, rfl⟩ | rfl) h
  · obtain ⟨-, -, hread⟩ | ⟨-, v, hread⟩ := readOperand_cases s.mem p0 m0
    · obtain rfl := Host.Outcome.next.inj (h.symm.trans (exec_of_faults (outputBody_eq_faults.mpr hread)))
      exact ⟨rfl, rfl, rfl, fun _ => rfl, nofun, .inl rfl, .inr ⟨rfl, rfl, rfl, rfl⟩⟩
    · obtain rfl := Host.Outcome.next.inj (h.symm.trans (exec_output_emits hread))
      exact ⟨rfl, rfl, rfl, fun _ => rfl, nofun, .inr ⟨v, rfl⟩, .inl ⟨rfl, rfl, rfl, rfl, fun _ => rfl⟩⟩
  · obtain rfl := Host.Outcome.next.inj (h.symm.trans (exec_halt s))
    exact ⟨rfl, rfl, rfl, fun _ => rfl, fun _ => ⟨rfl, rfl⟩, .inl rfl,
      .inl ⟨rfl, rfl, rfl, rfl, fun hother => absurd rfl hother⟩⟩

/-! Swapped sources. -/

theorem alu_comm (op : AluOp) (a b : Int) : alu op a b = alu op b a := by
  cases op with
  | sum => exact Int.add_comm a b
  | product => exact Int.mul_comm a b

theorem exec_arith_swap (op : AluOp) {s : State} {m0 m1 : Mode} {p0 p1 p2 a b : Int}
    (ha : readOperand s.mem p0 m0 = .completes a) (hb : readOperand s.mem p1 m1 = .completes b) :
    exec (arithInstr op m0 m1 p0 p1 p2) s = exec (arithInstr op m1 m0 p1 p0 p2) s := by
  have hbody : arithBody op m0 m1 p0 p1 p2 s = arithBody op m1 m0 p1 p0 p2 s := by
    simp [arithBody, ha, hb, alu_comm op a b]
  rw [exec_eq_settle, exec_eq_settle, body_arithInstr, body_arithInstr, width_arithInstr, width_arithInstr, hbody]

/-- Settles O37: both operations commute on the integers, and the resolved values are all that the rest of the body sees. -/
theorem sourcesMayBeSwapped : Obligations.SourcesMayBeSwapped := by
  rintro s m0 m1 p0 p1 p2 ⟨a, b, ha, hb⟩
  exact ⟨exec_arith_swap .sum ha hb, exec_arith_swap .product ha hb⟩

/-! A store and the next fetch. -/

theorem exec_storing {s : State} {i : Instr} {d v : Int}
    (hi : (∃ m0 m1 p0 p1 a b, readOperand s.mem p0 m0 = .completes a ∧ readOperand s.mem p1 m1 = .completes b ∧
        ((i = .add m0 m1 p0 p1 d ∧ v = a + b) ∨ (i = .multiply m0 m1 p0 p1 d ∧ v = a * b))) ∨
      (∃ rest, i = .input d ∧ s.inq = v :: rest))
    (h0 : 0 ≤ d) (hl : d < s.mem.length) (hv : cellInRange s.config.cellBits v = true) :
    ∃ t, exec i s = .next t ∧ t.ip = s.ip + i.width ∧ t.mem = s.mem.set d.toNat v := by
  obtain ⟨m0, m1, p0, p1, a, b, ha, hb, ⟨rfl, rfl⟩ | ⟨rfl, rfl⟩⟩ | ⟨rest, rfl, hinq⟩ := hi
  · exact ⟨_, exec_arith_stores .sum ha hb h0 hl hv, rfl, rfl⟩
  · exact ⟨_, exec_arith_stores .product ha hb h0 hl hv, rfl, rfl⟩
  · exact ⟨_, exec_input_stores hinq hv h0 hl, rfl, rfl⟩

/-- Settles O38: the cell stored to reads as the value, and the fetch reads that cell. -/
theorem nextFetchSeesTheStore : Obligations.NextFetchSeesTheStore := by
  intro s i d v hi h0 hl hv
  obtain ⟨t, hexec, hip, hmem⟩ := exec_storing hi h0 hl hv
  have hread : memRead t.mem d = .completes v := hmem ▸ memRead_set_same h0 hl
  refine ⟨t, hexec, hip, fun hd => ⟨fun e he => ?_, fun j hfetch => ?_⟩, fun j k hfetch hk hd => ?_⟩
  · exact fetch_eq_faults.mpr (.inr (.inl ⟨v, e, memRead_nat.mp (hd ▸ hread), he, rfl⟩))
  · obtain ⟨w, hopcode, hdecode⟩ := fetch_opcode_cell hfetch
    obtain rfl : v = w := Attempt.completes.inj ((hd ▸ hread).symm.trans hopcode)
    exact hdecode
  · have hparam : j.params[k]? = some j.params[k] := List.getElem?_eq_getElem hk
    have hcell := fetch_param_cell hfetch hparam
    rw [← hd, hread] at hcell
    rw [hparam, Attempt.completes.inj hcell]

/-! The input boundary. -/

theorem run_of_step_self {s : State} (hrun : s.rs = .running) (h : step s = .next s) (n : Nat) : run n s = .next s := by
  induction n with
  | zero => rfl
  | succ n ih => rw [run_succ hrun h, ih]

/-- Settles O33: without a value the step answers the same state, and so does every run of such steps; the supply is in range, so its
first value is delivered. -/
theorem inputHoldsUntilSupplied : Obligations.InputHoldsUntilSupplied := by
  intro s p0 hrun hpolicy hempty hfetch h0 hl
  have hholds : step s = .next s := by
    rw [step_of_fetch_completes hrun hfetch]
    exact exec_input_holds h0 hl (nextInput_empty hempty) hpolicy
  refine ⟨hholds, run_of_step_self hrun hholds, fun vs x xs hvs => ?_⟩
  have hinq : (s.supply vs).inq = x :: xs := by rw [supply_inq, hempty, hvs, List.nil_append]
  have hx : cellInRange s.config.cellBits x = true := deliverable_subset_range x (hvs ▸ List.mem_cons_self)
  have hstep : step (s.supply vs) = exec (.input p0) (s.supply vs) := step_of_fetch_completes hrun hfetch
  exact ⟨_, hstep.trans (exec_input_stores hinq hx h0 hl), rfl, rfl, rfl, hrun⟩

theorem cellInRange_some {n : Nat} {v : Int} :
    cellInRange (some n) v = true ↔ -(2 ^ (n - 1)) ≤ v ∧ v ≤ 2 ^ (n - 1) - 1 :=
  decide_eq_true_iff

theorem deliverable_of_forall {c : Config} {vs : List Int} (h : ∀ v ∈ vs, cellInRange c.cellBits v = true) :
    deliverable c vs = vs :=
  deliverable_eq_self.mpr (List.all_eq_true.mpr h)

/-- A counted `input` stored the first value of the supply, which is in range. -/
theorem step_counted_input {s t : State} {p0 : Int} (hfetch : fetch s.mem s.ip = .completes (.input p0))
    (h : step s = .next t) (hcount : t.icount = s.icount + 1) :
    ∃ x, s.inq = x :: t.inq ∧ cellInRange s.config.cellBits x = true ∧ t.mem[p0.toNat]? = some x := by
  obtain ⟨-, hrun, -⟩ := step_eq_next.mp h
  rw [step_of_fetch_completes hrun hfetch] at h
  obtain ⟨u, hbody, rfl⟩ | ⟨r, -, rfl⟩ | ⟨-, rfl⟩ := exec_eq_next.mp h
  · obtain ⟨⟨h0, hl⟩, x, rest, hinq, hx, rfl⟩ := inputBody_eq_completes.mp hbody
    exact ⟨x, hinq, hx, List.getElem?_set_self (by simp only [consume_mem]; omega)⟩
  · rw [takeFault_icount] at hcount
    omega
  · omega

/-- Settles O52: `load` and the supply filter what is offered, and the boundary tests the first value again before it delivers it. -/
theorem boundaryDeliversOnlyValuesInRange : Obligations.BoundaryDeliversOnlyValuesInRange := by
  refine ⟨fun v => ⟨rfl, fun n => cellInRange_some⟩, fun c inputs program s hload => ?_,
    fun s vs hs => ⟨fun v hv => ?_, fun hvs => ?_⟩, fun s t p0 => step_counted_input, fun s p0 x rest hinq hx h0 hl => ?_⟩
  · obtain ⟨-, rfl⟩ := load_eq_loaded.mp hload
    exact ⟨deliverable_subset_range, deliverable_of_forall⟩
  · obtain hv | hv := List.mem_append.mp hv
    · exact hs v hv
    · exact deliverable_subset_range v hv
  · rw [supply_inq, deliverable_of_forall hvs]
  · have hnone : s.nextInput = none := by
      refine nextInput_eq_none.mpr fun y ys hy => ?_
      obtain ⟨rfl, -⟩ := List.cons.inj (hinq.symm.trans hy)
      exact hx
    exact ⟨exec_input_exhausted h0 hl hnone, exec_input_holds h0 hl hnone⟩

/-! When `load` fails. -/

theorem tooLong_eq_true {c : Config} {n : Nat} : tooLong c n = true ↔ ∃ k, c.maxLen = some k ∧ k < n := by
  unfold tooLong
  split <;> simp [*]

theorem Memory.wf_eq_false {b : Option Nat} {m : Memory} :
    Memory.wf b m = false ↔ ∃ n, b = some n ∧ ∃ v ∈ m, v < -(2 ^ (n - 1)) ∨ 2 ^ (n - 1) ≤ v := by
  simp only [Memory.wf, List.all_eq_false, Bool.not_eq_true, cellInRange_eq_false]
  constructor
  · rintro ⟨v, hv, n, hn, hrange⟩
    exact ⟨n, hn, v, hv, hrange⟩
  · rintro ⟨n, hn, v, hv, hrange⟩
    exact ⟨v, hv, n, hn, hrange⟩

theorem load_eq_failed {c : Config} {inputs program : List Int} :
    load c inputs program = .failed .invalidProgram ↔
      program = [] ∨ tooLong c program.length = true ∨ Memory.wf c.cellBits program = false := by
  unfold load
  split
  next hbad => exact iff_of_true rfl hbad
  next hgood => exact iff_of_false nofun hgood

/-- Settles O15: the three checks of `load`, and the state it builds where none fails. -/
theorem loadFailsExactlyWhen : Obligations.LoadFailsExactlyWhen := by
  intro c inputs program
  refine ⟨load_eq_failed.trans (or_congr Iff.rfl (or_congr tooLong_eq_true Memory.wf_eq_false)), fun hgood => ?_⟩
  simp only [ne_eq, load_eq_failed, not_or, Bool.not_eq_true, Bool.not_eq_false] at hgood
  exact ⟨_, load_eq_loaded.mpr ⟨hgood, rfl⟩, rfl, rfl, rfl, rfl, rfl, rfl, rfl⟩

end Sys2Proof.Machine

/-! SUPPORT. The ends of a step told apart by what they leave, and what the host reads (10_state.md R18, 42_step_loop.md R101 and
its list of outcomes). -/

namespace Sys2Proof.Machine

/-- A step completes the fetched instruction and counts it, takes a fault that the state bears out and whose instruction is no `halt`,
or holds at an `input` that the boundary cannot supply. -/
theorem step_ends {s t : State} (h : step s = .next t) :
    (∃ i u, fetch s.mem s.ip = .completes i ∧ body i s = .completes u ∧ t = u.advance i.width) ∨
      (∃ r, r.BorneOut s ∧ fetch s.mem s.ip ≠ .completes .halt ∧ t = takeFault r s) ∨
      (t = s ∧ s.config.inputPolicy = .blocking ∧ s.nextInput = none ∧ ∃ p0, fetch s.mem s.ip = .completes (.input p0)) := by
  obtain ⟨-, -, hend⟩ := step_cases h
  rcases hend with hcomplete | ⟨i, r, hfetch, hbody, rfl⟩ | ⟨r, hfetch, rfl⟩ | ⟨p0, hfetch, hnone, hpolicy, rfl⟩
  · exact .inl hcomplete
  · refine .inr (.inl ⟨r, body_faults_borneOut hbody, fun hhalt => ?_, rfl⟩)
    obtain rfl := Attempt.completes.inj (hfetch.symm.trans hhalt)
    exact halt_ne_faults hbody
  · exact .inr (.inl ⟨r, fetch_faults_borneOut hfetch, by simp [hfetch], rfl⟩)
  · exact .inr (.inr ⟨rfl, hpolicy, hnone, p0, hfetch⟩)

theorem step_running {s t : State} (h : step s = .next t) : s.rs = .running := (step_eq_next.mp h).2.1

/-- Only `halt` ends in `Halted`, every other completed instruction in `Running`. -/
theorem completed_rs {i : Instr} {s u : State} (hrun : s.rs = .running) (h : body i s = .completes u) :
    (u.advance i.width).rs = if i = .halt then .halted else .running := by
  rw [advance_rs, body_completes_rs h, hrun]

theorem completed_icount {i : Instr} {s u : State} (h : body i s = .completes u) :
    (u.advance i.width).icount = s.icount + 1 := by
  obtain ⟨⟨-, hcount, -⟩, -⟩ := body_completes_frame h
  rw [advance_icount, hcount]

/-- Settles O23: the three ends of a step differ in the run state, in the count, and in whether anything changed. -/
theorem runStateTransitions : Obligations.RunStateTransitions := by
  refine fun s t => ⟨fun hended => step_ne_next_of_ended hended t, fun h => ?_⟩
  have hrun := step_running h
  obtain ⟨i, u, hfetch, hbody, ht⟩ | ⟨r, -, hfetch, rfl⟩ | ⟨rfl, -, -, p0, hfetch⟩ := step_ends h
  · have hrs : t.rs = if i = .halt then .halted else .running := ht ▸ completed_rs hrun hbody
    have hcount : t.icount = s.icount + 1 := ht ▸ completed_icount hbody
    have hne : t ≠ s := fun heq => by rw [heq] at hcount; omega
    by_cases hi : i = .halt <;> simp [hrs, hcount, hne, hfetch, hi]
  · have hne : takeFault r s ≠ s := fun heq => by simpa [hrun] using congrArg State.rs heq
    simp [hfetch, hne]
  · simp [hrun, hfetch]

/-- Settles O24, by the three ends of a step, with the completed instruction taken constructor by constructor. -/
theorem stepHasOneOfFourOutcomes : Obligations.StepHasOneOfFourOutcomes := by
  intro s hrun hloaded
  obtain ⟨t, h⟩ := step_total hrun hloaded
  refine ⟨t, h, ?_⟩
  obtain ⟨i, u, hfetch, hbody, rfl⟩ | ⟨r, -, -, rfl⟩ | hhold := step_ends h
  · cases i with
    | add m0 m1 p0 p1 p2 =>
      obtain ⟨a, b, ha, hb, ⟨h0, hl⟩, -, rfl⟩ := arithBody_eq_completes.mp hbody
      exact .inl ⟨_, hfetch, rfl, .inl ⟨m0, m1, p0, p1, p2, a, b, p2, _, ha, hb, writeAddress_inside h0 hl,
        .inl ⟨rfl, rfl⟩, rfl, rfl, rfl⟩⟩
    | multiply m0 m1 p0 p1 p2 =>
      obtain ⟨a, b, ha, hb, ⟨h0, hl⟩, -, rfl⟩ := arithBody_eq_completes.mp hbody
      exact .inl ⟨_, hfetch, rfl, .inl ⟨m0, m1, p0, p1, p2, a, b, p2, _, ha, hb, writeAddress_inside h0 hl,
        .inr ⟨rfl, rfl⟩, rfl, rfl, rfl⟩⟩
    | input p0 =>
      obtain ⟨⟨h0, hl⟩, x, rest, hinq, -, rfl⟩ := inputBody_eq_completes.mp hbody
      exact .inl ⟨_, hfetch, rfl, .inr (.inl ⟨p0, p0, x, rfl, writeAddress_inside h0 hl, hinq, rfl, rfl⟩)⟩
    | output m0 p0 =>
      obtain ⟨v, hread, rfl⟩ := outputBody_eq_completes.mp hbody
      exact .inl ⟨_, hfetch, rfl, .inr (.inr ⟨m0, p0, v, rfl, hread, rfl, rfl, rfl⟩)⟩
    | halt =>
      cases hbody
      exact .inr (.inl ⟨hfetch, rfl⟩)
  · exact .inr (.inr (.inl ⟨rfl, by cases r <;> nofun, by cases r <;> nofun⟩))
  · exact .inr (.inr (.inr hhold))

theorem step_faulted {s t : State} (h : step s = .next t) (hfaulted : t.rs = .faulted) :
    ∃ r, r.BorneOut s ∧ t = takeFault r s := by
  have hrun := step_running h
  obtain ⟨i, u, -, hbody, rfl⟩ | ⟨r, hr, -, rfl⟩ | ⟨rfl, -⟩ := step_ends h
  · rw [completed_rs hrun hbody] at hfaulted
    split at hfaulted <;> cases hfaulted
  · exact ⟨r, hr, rfl⟩
  · rw [hrun] at hfaulted
    cases hfaulted

/-- Settles O41: a step that faulted took a fault its state bears out, and the record says which. -/
theorem faultEntryWritesOnlyTheRecord : Obligations.FaultEntryWritesOnlyTheRecord := by
  intro s t h hfaulted
  obtain ⟨r, hr, rfl⟩ := step_faulted h hfaulted
  refine ⟨rfl, ?_⟩
  cases r with
  | decodeError e v =>
    obtain ⟨hcell, hd⟩ := hr
    exact ⟨fun _ => ⟨v, e, hcell, hd, rfl, rfl⟩, fun hother => absurd rfl hother, nofun, nofun⟩
  | addressOutOfBounds a => exact ⟨nofun, fun _ => rfl, fun _ => hr, nofun⟩
  | inputExhausted | overflow => exact ⟨nofun, fun _ => rfl, nofun, fun _ => rfl⟩

theorem report_running {s : State} (h : s.rs = .running) : s.report = .notEnded := by rw [State.report, h]

theorem report_halted {s : State} (h : s.rs = .halted) : s.report = .halted s.icount := by rw [State.report, h]

theorem report_faulted {s : State} (h : s.rs = .faulted) : s.report = .failed s.fcause s.fsub s.fip s.finfo := by
  rw [State.report, h]

/-- Settles O42: the report by the run state, the snapshot of a loaded machine, and the table of codes. -/
theorem hostReadsTheEndOfTheRun : Obligations.HostReadsTheEndOfTheRun :=
  ⟨fun _ => ⟨report_running, report_halted, report_faulted, fun hloaded => if_neg hloaded⟩, by decide⟩

end Sys2Proof.Machine

/-! SUPPORT. Whole runs: what only moves forward, why a run ends, and what a run does not look at (42_step_loop.md section 2,
44_io.md section 2). -/

namespace Sys2Proof.Machine

/-- What runs keep and what only grows, from `s` to `t`: the parameters and `LEN` stay, `ip` does not go back, and each value that
crossed a boundary was counted. -/
def MovesForward (s t : State) : Prop :=
  t.config = s.config ∧ t.mem.length = s.mem.length ∧ s.ip ≤ t.ip ∧
    ∃ xs ys, s.inq = xs ++ t.inq ∧ t.outlog = s.outlog ++ ys ∧ s.icount + xs.length + ys.length ≤ t.icount

theorem MovesForward.refl (s : State) : MovesForward s s :=
  ⟨rfl, rfl, Nat.le_refl _, [], [], rfl, (List.append_nil _).symm, Nat.le_refl _⟩

theorem MovesForward.trans {s t u : State} (hst : MovesForward s t) (htu : MovesForward t u) : MovesForward s u := by
  obtain ⟨hconfig, hlen, hip, xs, ys, hinq, hout, hcount⟩ := hst
  obtain ⟨hconfig', hlen', hip', xs', ys', hinq', hout', hcount'⟩ := htu
  refine ⟨hconfig'.trans hconfig, hlen'.trans hlen, Nat.le_trans hip hip', xs ++ xs', ys ++ ys', ?_, ?_, ?_⟩
  · rw [hinq, hinq', List.append_assoc]
  · rw [hout', hout, List.append_assoc]
  · rw [List.length_append, List.length_append]
    omega

theorem step_movesForward {s t : State} (h : step s = .next t) : MovesForward s t := by
  obtain ⟨i, u, -, hbody, rfl⟩ | ⟨r, -, -, rfl⟩ | ⟨rfl, -⟩ := step_ends h
  · obtain ⟨⟨hip, hcount, hconfig, hlen⟩, -⟩ := body_completes_frame hbody
    obtain ⟨xs, ys, hinq, hout, hevents⟩ := body_completes_io hbody
    refine ⟨hconfig, hlen, ?_, xs, ys, hinq, hout, ?_⟩
    · rw [advance_ip]; omega
    · rw [advance_icount]; omega
  · exact MovesForward.refl s
  · exact MovesForward.refl t

/-- Settles O50: every step moves forward, and so does their sequence. -/
theorem runsOnlyMoveForward : Obligations.RunsOnlyMoveForward := by
  intro n
  induction n with
  | zero =>
    rintro s t ⟨⟩
    exact MovesForward.refl s
  | succ n ih =>
    intro s t h
    obtain ⟨-, rfl⟩ | ⟨u, hstep, hrest⟩ := run_cases h
    · exact MovesForward.refl t
    · exact (step_movesForward hstep).trans (ih u t hrest)

/-- With a queue nothing holds: a step faults, or it counts one instruction and moves `ip` on, still within Memory. -/
theorem queue_step {s t : State} (hqueue : s.config.inputPolicy = .queue) (h : step s = .next t) :
    (t.rs = .faulted ∧ t.icount = s.icount) ∨ ((s.ip < t.ip ∧ t.ip ≤ s.mem.length) ∧ t.icount = s.icount + 1) := by
  obtain ⟨i, u, hfetch, hbody, rfl⟩ | ⟨r, -, -, rfl⟩ | ⟨-, hblocking, -⟩ := step_ends h
  · obtain ⟨-, -, -, -, -, -, -, hinside⟩ := fetched_cells hfetch
    obtain ⟨⟨hip, -⟩, -⟩ := body_completes_frame hbody
    have hwidth := width_bounds i
    refine .inr ⟨?_, completed_icount hbody⟩
    rw [advance_ip, hip]
    omega
  · exact .inl ⟨rfl, rfl⟩
  · rw [hqueue] at hblocking
    cases hblocking

/-- Settles O49, by induction on the cells that are left before the end of Memory. -/
theorem runsEndWithinTheLengthOfMemory : Obligations.RunsEndWithinTheLengthOfMemory := by
  intro s hloaded hqueue
  induction hleft : s.mem.length - s.ip using Nat.strongRecOn generalizing s with
  | _ left ih =>
    by_cases hrun : s.rs = .running
    · obtain ⟨u, hstep⟩ := step_total hrun hloaded
      have hrun_succ (n : Nat) : run (n + 1) s = run n u := run_succ hrun hstep
      obtain ⟨hfaulted, hcount⟩ | ⟨⟨hahead, hinside⟩, hcount⟩ := queue_step hqueue hstep
      · have hended : u.rs ≠ .running := by simp [hfaulted]
        refine ⟨u, hended, by omega, fun n hn => ?_⟩
        obtain ⟨n, rfl⟩ : ∃ k, n = k + 1 := ⟨n - 1, by omega⟩
        rw [hrun_succ, run_of_ended hended]
      · obtain ⟨hconfig, hlen, -⟩ := step_movesForward hstep
        have hloaded' : u.mem ≠ [] := List.ne_nil_of_length_pos (by omega)
        obtain ⟨t, hended, hbound, hend⟩ := ih (u.mem.length - u.ip) (by omega) u hloaded' (hconfig ▸ hqueue) rfl
        refine ⟨t, hended, by omega, fun n hn => ?_⟩
        obtain ⟨n, rfl⟩ : ∃ k, n = k + 1 := ⟨n - 1, by omega⟩
        rw [hrun_succ, hend n (by omega)]
    · exact ⟨s, hrun, by omega, fun n _ => run_of_ended hrun n⟩

/-! Further inputs behind those that are there. -/

theorem body_completes_supply {i : Instr} {s u : State} (extra : List Int) (h : body i s = .completes u) :
    body i (s.supply extra) = .completes (u.supply extra) := by
  cases i with
  | add | multiply =>
    obtain ⟨a, b, ha, hb, hinside, hv, rfl⟩ := arithBody_eq_completes.mp h
    exact arithBody_eq_completes.mpr ⟨a, b, ha, hb, hinside, hv, rfl⟩
  | input p0 =>
    obtain ⟨hinside, x, rest, hinq, hx, rfl⟩ := inputBody_eq_completes.mp h
    refine inputBody_eq_completes.mpr ⟨hinside, x, rest ++ deliverable s.config extra, ?_, hx, rfl⟩
    rw [supply_inq, hinq, List.cons_append]
  | output =>
    obtain ⟨v, hread, rfl⟩ := outputBody_eq_completes.mp h
    exact outputBody_eq_completes.mpr ⟨v, hread, rfl⟩
  | halt => cases h; rfl

theorem body_faults_supply {i : Instr} {s : State} {r : Raise} (extra : List Int) (h : body i s = .faults r) :
    r = .inputExhausted ∨ body i (s.supply extra) = .faults r := by
  cases i with
  | add | multiply =>
    have hfault := arithBody_eq_faults.mp h
    exact .inr (arithBody_eq_faults.mpr hfault)
  | input p0 =>
    obtain hout | ⟨-, rfl, -⟩ := inputBody_eq_faults.mp h
    · exact .inr (inputBody_eq_faults.mpr (.inl hout))
    · exact .inl rfl
  | output =>
    have hread := outputBody_eq_faults.mp h
    exact .inr (outputBody_eq_faults.mpr hread)
  | halt => exact absurd h halt_ne_faults

/-- A step goes the same way with further inputs behind those there are, unless it ends or waits for want of one. -/
theorem step_supply {s t : State} (extra : List Int) (h : step s = .next t) :
    (t.rs = .faulted ∧ t.fcause = .inputExhausted) ∨ t = s ∨ step (s.supply extra) = .next (t.supply extra) := by
  obtain ⟨hloaded, hrun, hend⟩ := step_cases h
  have hstep {i : Instr} (hfetch : fetch s.mem s.ip = .completes i) :
      step (s.supply extra) = exec i (s.supply extra) := step_of_fetch_completes hrun hfetch
  rcases hend with ⟨i, u, hfetch, hbody, rfl⟩ | ⟨i, r, hfetch, hbody, rfl⟩ | ⟨r, hfetch, rfl⟩ | ⟨_, -, -, -, rfl⟩
  · exact .inr (.inr ((hstep hfetch).trans (exec_of_completes (body_completes_supply extra hbody))))
  · obtain rfl | hbody := body_faults_supply extra hbody
    · exact .inl ⟨rfl, rfl⟩
    · exact .inr (.inr ((hstep hfetch).trans (exec_of_faults hbody)))
  · exact .inr (.inr (step_of_fetch_faults (s := s.supply extra) hrun hloaded hfetch))
  · exact .inr (.inl rfl)

/-- Settles O51, by induction on the fuel: a run that ends otherwise than for want of input has no step that ends so, and none that
waits, for a waiting machine waits as long as it runs. -/
theorem unusedInputsDoNotMatter : Obligations.UnusedInputsDoNotMatter := by
  intro n
  induction n with
  | zero =>
    rintro s t extra ⟨⟩ -
    rfl
  | succ n ih =>
    intro s t extra h hend
    obtain ⟨hended, rfl⟩ | ⟨u, hstep, hrest⟩ := run_cases h
    · exact run_of_ended (s := t.supply extra) hended (n + 1)
    have hrun := step_running hstep
    obtain ⟨hfaulted, hexhausted⟩ | rfl | hsupply := step_supply extra hstep
    · have hstop := run_of_ended (s := u) (by simp [hfaulted]) n
      obtain rfl := Host.Outcome.next.inj (hrest.symm.trans hstop)
      simp [hfaulted, hexhausted] at hend
    · have hwait := run_of_step_self hrun hstep n
      obtain rfl := Host.Outcome.next.inj (hrest.symm.trans hwait)
      simp [hrun] at hend
    · rw [run_succ (s := s.supply extra) hrun hsupply]
      exact ih u t extra hrest hend

end Sys2Proof.Machine
